-- ==== Sys2Proof/Word.lean ====
section
/-! DEFINITION. The word types of CORE. -/

namespace Sys2Proof

/-- The addressable unit, `bits8` (00_scope.md section 5; 20_memory.md R30). -/
abbrev Byte := BitVec 8

/-- A QuantizedSample, `bits16` in two's complement (20_memory.md R33). -/
abbrev Quantized := BitVec 16

/-- A Sample, a binary32 bit pattern (40_quantizer.md R80). -/
abbrev Sample := BitVec 32

end Sys2Proof
end

