-- ==== Sys2Proof/Config.lean ====
section
/-! DEFINITION. The hard-wired constants of 10_state.md R11 and the parameter table of 00_scope.md R5.
`FRAME_LENGTH` is open: it is a field of State (log 1) and every function that needs it takes it as `fl`. -/

namespace Sys2Proof.Config

/-- `HEADER_SIZE` (R11). -/
abbrev headerSize : Nat := 5

/-- `TYPE_NORMAL` (30_encoding.md R51). -/
abbrev typeNormal : Byte := 0x10#8

/-- `TYPE_SILENT` (30_encoding.md R51). -/
abbrev typeSilent : Byte := 0x11#8

/-- `SCALE` (R11). -/
abbrev scale : Nat := 32767

/-- `LANE_SIZE` (00_scope.md section 4). -/
abbrev laneSize : Nat := 3

/-- `EXT_MAX` (00_scope.md section 4). -/
abbrev extMax : Nat := 255

/-- The most elements a sequence operand can have: `LENW = 16` (10_state.md R15). -/
abbrev lengthMax : Nat := 65535

/-- The largest `FRAME_LENGTH` (R5). -/
abbrev frameLengthMax : Nat := 32637

/-- `PAYLOAD_SIZE = 2 * FRAME_LENGTH` (R11). -/
abbrev payloadSize (fl : Nat) : Nat := 2 * fl

/-- `MAX_PACKET = 5 + 2 * FRAME_LENGTH + 255` (R11). -/
abbrev maxPacket (fl : Nat) : Nat := headerSize + payloadSize fl + extMax

end Sys2Proof.Config
end

