-- ==== Sys2Proof/Syntax.lean ====
section
/-! DEFINITION. The syntax: the rows of the opcode table, requests, and packets. -/

namespace Sys2Proof

/-- One constructor per row of spec/opcode_table.json. The rows have no operand bits: a command's operands are
fields of its request (30_encoding.md R59, R60; 10_state.md R15), and the two packet rows match byte 0 of a
packet, the TypeId (R50, R51; log 7). -/
inductive Instr where
  | quant
  | dequant
  | issil
  | fser
  | fdes
  | enc
  | val
  | vals
  | dec
  | pktN
  | pktS
deriving DecidableEq, Repr

/-- The two byte spaces the table's words live in: the `CMD` byte of a request and byte 0 of a packet. -/
inductive CodeSpace where
  | command
  | packet
deriving DecidableEq, Repr

/-- A request `(CMD, operands)` (10_state.md R15). A request carries the fields its operation uses; the record has
a place for every field, and an operation never reads a field outside its row of R17 (log 13). -/
structure Request where
  /-- `CMD` -/
  cmd : Byte
  /-- `S_IN` -/
  sIn : Sample := 0#32
  /-- `Q_IN` -/
  qIn : Quantized := 0#16
  /-- `QF_IN` -/
  qfIn : List Quantized := []
  /-- `PL_IN` -/
  plIn : List Byte := []
  /-- `AUDIO` -/
  audio : List Sample := []
  /-- `LANE` -/
  lane : List Byte := []
  /-- `EXT` -/
  ext : List Byte := []
  /-- `RAW` -/
  raw : List Byte := []
deriving DecidableEq, Repr

/-- A packet in one of the two formats of 30_encoding.md R50: `normal` is PKT-N, `silent` is PKT-S. -/
inductive Packet where
  | normal (laneName : List Byte) (audioPayload : List Quantized) (extensionBytes : List Byte)
  | silent (laneName : List Byte) (extensionBytes : List Byte)
deriving DecidableEq, Repr

end Sys2Proof
end

