-- ==== Sys2Proof/WellFormed.lean ====
section
/-! DEFINITION. What the types leave to a check: the range of `FRAME_LENGTH`, the sizes of a request's operands, the
sizes of a packet's fields. -/

namespace Sys2Proof

/-- `1 <= FRAME_LENGTH <= 32637` (00_scope.md R5). -/
def frameLengthOk (fl : Nat) : Bool :=
  decide (1 ≤ fl) && decide (fl ≤ Config.frameLengthMax)

/-- The four sequence operands have at most 65535 elements (10_state.md R15). -/
def Request.lengthsOk (r : Request) : Bool :=
  decide (r.audio.length ≤ Config.lengthMax) && decide (r.lane.length ≤ Config.lengthMax) &&
    decide (r.ext.length ≤ Config.lengthMax) && decide (r.raw.length ≤ Config.lengthMax)

/-- The request of operation `i` has its fixed-size operand at its size: `QF_IN : bits16[FRAME_LENGTH]`,
`PL_IN : byte[2*FRAME_LENGTH]` (10_state.md R15, R17). -/
def Instr.operandsOk (fl : Nat) (i : Instr) (r : Request) : Bool :=
  match i with
  | .issil => decide (r.qfIn.length = fl)
  | .fser => decide (r.qfIn.length = fl)
  | .fdes => decide (r.plIn.length = Config.payloadSize fl)
  | .quant => true
  | .dequant => true
  | .enc => true
  | .val => true
  | .vals => true
  | .dec => true
  | .pktN => true
  | .pktS => true

/-- A packet's fields have the sizes of its format (30_encoding.md R50): 3 lane bytes, `FRAME_LENGTH` samples in
PKT-N, at most 255 extension bytes. -/
def Packet.wf (fl : Nat) : Packet → Bool
  | .normal lane qs ext =>
      decide (lane.length = Config.laneSize) && decide (qs.length = fl) && decide (ext.length ≤ Config.extMax)
  | .silent lane ext => decide (lane.length = Config.laneSize) && decide (ext.length ≤ Config.extMax)

end Sys2Proof
end

