-- ==== Sys2Proof/Decode.lean ====
section
/-! DEFINITION. Decoding, total on any bytes and rejecting by name, then the encoders: of the command byte and the
TypeId byte (30_encoding.md R51, R59, R60), of the audio payload (20_memory.md R32), of whole packets (R50). -/

namespace Sys2Proof

/-- Why a byte names no row of the table. -/
inductive DecodeError where
  /-- The `CMD` byte is none of the nine legal values (30_encoding.md R61). -/
  | illegalCommand (b : Byte)
  /-- The TypeId byte is neither tag (30_encoding.md R57). -/
  | notATag (b : Byte)
deriving DecidableEq, Repr

/-! ## The command byte (R59) -/

/-- `OP`, bits 3:0. -/
def cmdOp (b : Byte) : BitVec 4 := b.extractLsb' 0 4

/-- `STRICT`, bit 4. -/
def cmdStrict (b : Byte) : Bool := b.getLsbD 4

/-- The reserved bits 7:5, which must be zero. -/
def cmdReserved (b : Byte) : BitVec 3 := b.extractLsb' 5 3

/-- The operation of an `OP` number; `STRICT` may be 1 only with `OP = 0x6` (R59, R60). -/
def opInstr (op : BitVec 4) (strict : Bool) : Option Instr :=
  if strict then
    if op = 0x6#4 then some .vals else none
  else if op = 0x0#4 then some .quant
  else if op = 0x1#4 then some .dequant
  else if op = 0x2#4 then some .issil
  else if op = 0x3#4 then some .fser
  else if op = 0x4#4 then some .fdes
  else if op = 0x5#4 then some .enc
  else if op = 0x6#4 then some .val
  else if op = 0x7#4 then some .dec
  else none

/-- The command decoder (R59 to R61). -/
def decodeCmd (b : Byte) : Except DecodeError Instr :=
  if cmdReserved b = 0#3 then
    match opInstr (cmdOp b) (cmdStrict b) with
    | some i => .ok i
    | none => .error (.illegalCommand b)
  else .error (.illegalCommand b)

/-- The decoder of byte 0 of a packet (R51, R57). -/
def decodeTag (b : Byte) : Except DecodeError Instr :=
  if b = Config.typeNormal then .ok .pktN
  else if b = Config.typeSilent then .ok .pktS
  else .error (.notATag b)

/-- Decoding in one of the two byte spaces. -/
def decodeIn (sp : CodeSpace) (b : Byte) : Except DecodeError Instr :=
  match sp with
  | .command => decodeCmd b
  | .packet => decodeTag b

/-- Decoding a word of the opcode table, whose rows of both spaces share no value: the nine commands, then the two
tags. A word is one byte. -/
def decodeTableWord (nbits w : Nat) : Option Instr :=
  if 8 ≤ nbits ∧ w < 256 then
    match decodeCmd (BitVec.ofNat 8 w) with
    | .ok i => some i
    | .error _ =>
      match decodeTag (BitVec.ofNat 8 w) with
      | .ok i => some i
      | .error _ => none
  else none

/-! ## The encoder of the two bytes -/

/-- The byte space a row belongs to. -/
def Instr.space : Instr → CodeSpace
  | .quant => .command
  | .dequant => .command
  | .issil => .command
  | .fser => .command
  | .fdes => .command
  | .enc => .command
  | .val => .command
  | .vals => .command
  | .dec => .command
  | .pktN => .packet
  | .pktS => .packet

/-- `{reserved = 0, STRICT, OP}` (R59). -/
def cmdByte (strict : Bool) (op : BitVec 4) : Byte := 0#3 ++ BitVec.ofBool strict ++ op

/-- The byte of a row: the table of R60, and the tags of R51. -/
def encode : Instr → Byte
  | .quant => cmdByte false 0x0#4
  | .dequant => cmdByte false 0x1#4
  | .issil => cmdByte false 0x2#4
  | .fser => cmdByte false 0x3#4
  | .fdes => cmdByte false 0x4#4
  | .enc => cmdByte false 0x5#4
  | .val => cmdByte false 0x6#4
  | .vals => cmdByte true 0x6#4
  | .dec => cmdByte false 0x7#4
  | .pktN => Config.typeNormal
  | .pktS => Config.typeSilent

/-! ## Byte order of a sample and the audio payload (20_memory.md R32, 42_frame_codec.md R110, R112) -/

/-- `q[7:0]`, the byte at the lower offset. -/
def loByte (q : Quantized) : Byte := q.extractLsb' 0 8

/-- `q[15:8]`, the byte at the higher offset. -/
def hiByte (q : Quantized) : Byte := q.extractLsb' 8 8

/-- `{hi, lo}`: the sample of two payload bytes (30_encoding.md R54). -/
def ofLoHi (lo hi : Byte) : Quantized := hi ++ lo

/-- `ser_frame` (R110): low byte first, samples in frame order. -/
def serFrame : List Quantized → List Byte
  | [] => []
  | q :: qs => loByte q :: hiByte q :: serFrame qs

/-- `des_frame` (R112). A payload has an even number of bytes; a single byte left over is no sample. -/
def desFrame : List Byte → List Quantized
  | lo :: hi :: rest => ofLoHi lo hi :: desFrame rest
  | [_] => []
  | [] => []

/-! ## Whole packets (30_encoding.md R50 to R56) -/

/-- The structured packet of a byte sequence: its length is told by `TypeId` and `ExtLen` and must be exact (R56). -/
def Packet.decode (fl : Nat) : List Byte → Option Packet
  | tag :: l0 :: l1 :: l2 :: extLen :: body =>
    match decodeTag tag with
    | .error _ => none
    | .ok i =>
      if i = .pktN then
        if body.length = Config.payloadSize fl + extLen.toNat then
          some (.normal [l0, l1, l2] (desFrame (body.take (Config.payloadSize fl))) (body.drop (Config.payloadSize fl)))
        else none
      else if body.length = extLen.toNat then some (.silent [l0, l1, l2] body)
      else none
  | _ => none

/-- `[TypeId(1)][LaneName(3)][ExtLen(1)][AudioPayload][ExtensionBytes(ExtLen)]` (R50). -/
def Packet.encode : Packet → List Byte
  | .normal lane qs ext =>
      Config.typeNormal :: (lane ++ BitVec.ofNat 8 ext.length :: (serFrame qs ++ ext))
  | .silent lane ext => Config.typeSilent :: (lane ++ BitVec.ofNat 8 ext.length :: ext)

/-! ## Notation of requests (30_encoding.md R68, R69) -/

/-- `quantize(s)` stands for QUANT `S_IN=s`. -/
def Request.quantize (s : Sample) : Request := { cmd := encode .quant, sIn := s }

/-- `dequantize(q)` stands for DEQUANT `Q_IN=q`. -/
def Request.dequantize (q : Quantized) : Request := { cmd := encode .dequant, qIn := q }

/-- `is_silent(qf)` stands for ISSIL `QF_IN=qf`. -/
def Request.isSilent (qf : List Quantized) : Request := { cmd := encode .issil, qfIn := qf }

/-- FSER `QF_IN=qf`. -/
def Request.serialize (qf : List Quantized) : Request := { cmd := encode .fser, qfIn := qf }

/-- FDES `PL_IN=pl`. -/
def Request.deserialize (pl : List Byte) : Request := { cmd := encode .fdes, plIn := pl }

/-- `encode(f, l, e)` stands for ENC `AUDIO=f LANE=l EXT=e`. -/
def Request.encodePacket (audio : List Sample) (lane ext : List Byte) : Request :=
  { cmd := encode .enc, audio := audio, lane := lane, ext := ext }

/-- `validate(b, strict)` and `is_valid_packet(b, strict)`, two names of one function (90_conflicts.md C6), stand for
VAL or VALS `RAW=b`. -/
def Request.validate (raw : List Byte) (strict : Bool) : Request :=
  { cmd := encode (if strict then .vals else .val), raw := raw }

/-- `decode(b)` stands for DEC `RAW=b`. -/
def Request.decodePacket (raw : List Byte) : Request := { cmd := encode .dec, raw := raw }

end Sys2Proof
end

