-- ==== Sys2Proof/Machine/State.lean ====
section
/-! DEFINITION. The state of CORE as plain data, its responses, the reasons a step may stop, and reset. -/

namespace Sys2Proof.Machine

/-! ## Errors and responses -/

/-- `STATUS.KIND` (30_encoding.md R62; 60_exceptions.md R190). -/
inductive ErrKind where
  | noError
  | typeError
  | valueError
  | commandError
deriving DecidableEq, Repr

/-- The error codes of 30_encoding.md R66, in the order of the table. -/
inductive ErrCode where
  | encAudioType
  | encAudioLen
  | encLaneType
  | encLaneAscii
  | encLaneLen
  | encExtType
  | encExtLen
  | valRawType
  | valEmpty
  | valTypeId
  | valHdrShort
  | valAudioShort
  | valSilentShort
  | valAudioLong
  | valSilentLong
  | decRawType
  | decNotAudio
  | decShort
  | decLong
  | cmdIllegal
deriving DecidableEq, Repr

/-- The result fields of a response (10_state.md R16): exactly those its operation produces (R17), none in an error
response (60_exceptions.md R196). -/
inductive Results where
  | nothing
  /-- `Q_OUT` -/
  | quantized (qOut : Quantized)
  /-- `S_OUT` -/
  | sample (sOut : Sample)
  /-- `QF_OUT` -/
  | frame (qfOut : List Quantized)
  /-- `PL_OUT` -/
  | payload (plOut : List Byte)
  /-- `PKT` -/
  | packet (pkt : List Byte)
  /-- `FRAME_OUT`, `LANE_OUT`, `EXT_OUT` -/
  | decoded (frameOut : List Sample) (laneOut extOut : List Byte)
deriving DecidableEq, Repr

/-- A response `(STATUS, results)` (10_state.md R16). -/
structure Response where
  status : BitVec 16
  results : Results
deriving DecidableEq, Repr

/-! ## The packet byte space -/

/-- The packet byte space (20_memory.md R30): the offsets below `size` exist; `cells` lists, by strictly rising
offset, the bytes that are not `0x00`, and a byte inside the space that is not listed reads `0x00` (log 10). -/
structure Memory where
  size : Nat
  cells : List Host.Cell
deriving DecidableEq, Repr

/-! ## The validator -/

/-- The verdicts of 44_validator.md R140. -/
inductive Verdict where
  | ok
  | empty
  | typeId
  | hdrShort
  | audioShort
  | silentShort
  | audioLong
  | silentLong
deriving DecidableEq, Repr

/-- The states of the stage machine, in the order of 44_validator.md R141 (`ST_TYPECHK` to `ST_REJECT`). -/
inductive Stage where
  | typeChk
  | empty
  | typeId
  | hdrLen
  | extLen
  | short
  | long
  | accept
  | reject
deriving DecidableEq, Repr

/-- The states of the byte-serial machine, in the order of 44_validator.md R152 (`BS_TYPE` is 0 to `BS_BADTYPE` is 8). -/
inductive Serial where
  | type
  | lane0
  | lane1
  | lane2
  | extLen
  | body
  | full
  | over
  | badType
deriving DecidableEq, Repr

/-- `vst`: a state of one of the two machines (10_state.md R19). -/
inductive VState where
  | stage (st : Stage)
  | serial (st : Serial)
deriving DecidableEq, Repr

/-- Which of the two equivalent validator machines the instance is built with (44_validator.md R152, "can be built
as"; 92_eei_decisions.md D27; log 2). -/
inductive ValidatorForm where
  | stage
  | serial
deriving DecidableEq, Repr

/-- The transaction-local variables of 10_state.md R19 (the validator's) and R20 (the encoder's), with the packet
under construction (20_memory.md R36). Lengths and counts are natural numbers (log 8). -/
structure Locals where
  vst : VState
  pos : Nat
  typ : BitVec 1
  extLen : Byte
  expectedLen : Nat
  rem : Nat
  verdict : Option Verdict
  qf : List Quantized
  silent : Bool
  pkt : Memory
deriving DecidableEq, Repr

/-! ## The state -/

/-- A transaction in progress: the request as accepted (70_reset_and_hazards.md R226) and its local variables. -/
structure Txn where
  req : Request
  loc : Locals
deriving DecidableEq, Repr

/-- IDLE or BUSY (10_state.md R23); the fields of a transaction exist only while BUSY (R24). -/
inductive Activity where
  | idle
  | busy (t : Txn)
deriving DecidableEq, Repr

/-- What the host does in one step (10_state.md R14; 70_reset_and_hazards.md R220; log 3). -/
inductive HostInput where
  | quiet
  | request (r : Request)
  | reset
deriving DecidableEq, Repr

/-- The machine: two hard-wired constants of the instance, IDLE or BUSY, the response being given, and the MODEL's
own list of what the host does at the coming steps (an empty list: nothing, forever). -/
structure State where
  /-- `FRAME_LENGTH` (00_scope.md R5; log 1). -/
  frameLength : Nat
  /-- The validator's build (log 2). -/
  form : ValidatorForm
  activity : Activity
  /-- The response given by the step just taken, if it gave one (log 5). -/
  resp : Option Response
  inputs : List HostInput
deriving DecidableEq, Repr

/-! ## Why a step may stop -/

/-- The model's own faults. The spec gives CORE none: every error of the spec is a response, a next state. -/
inductive Fault where
  /-- Raised by `exec` for a command when no transaction is in progress. Safe; `step` never asks for it (log 11). -/
  | noTransaction
  /-- Raised by `MemRead` and `MemWrite` at an offset that does not exist (20_memory.md R30). Safe; no operation gets
  there (R35, R36; log 11). -/
  | outsidePacket
  /-- Raised by `exec` for a packet tag when the validator awaits no TypeId. Safe; `step` never asks for it (log 11). -/
  | noTypeIdAwaited
  /-- Raised when `vst` is no state of the machine being run, or a machine ended with no verdict. Safe; never from a
  state that meets the invariant (log 11). -/
  | validatorState
deriving DecidableEq, Repr

/-- Refusals. -/
inductive Refusal where
  /-- Raised in an arm of `exec` for an instruction with no meaning yet. Safe. No arm raises it. -/
  | notModelled (mnemonic : String)
deriving DecidableEq, Repr

/-! ## Reset -/

/-- The block right after reset, for an instance built with `fl` and `form` (10_state.md R24): IDLE, no response
pending, nothing else exists; the host does nothing. -/
def State.afterReset (fl : Nat) (form : ValidatorForm) : State :=
  { frameLength := fl, form := form, activity := .idle, resp := none, inputs := [] }

/-- The machine right after reset. The spec leaves `FRAME_LENGTH` open (R5) and the validator's form free (D27): the
two values here are the model's (DESIGN CHOICE, logs 1 and 2). -/
def State.reset : State := State.afterReset 4 .stage

end Sys2Proof.Machine
end

