-- ==== Sys2Proof/Machine/Flags.lean ====
section
/-! DEFINITION. The status word of a response, the block's only flags (10_state.md R21; 30_encoding.md R62 to R66). -/

namespace Sys2Proof.Machine

/-- `KIND` as the two bits of R62. -/
def ErrKind.bits : ErrKind → BitVec 2
  | .noError => 0#2
  | .typeError => 1#2
  | .valueError => 2#2
  | .commandError => 3#2

/-- `STATUS` from its fields (R62): `ERR` 15:8, zeros 7:4, `KIND` 3:2, `BOOL` 1, `OK` 0. -/
def statusWord (err : Byte) (kind : ErrKind) (bool ok : Bool) : BitVec 16 :=
  err ++ 0#4 ++ kind.bits ++ BitVec.ofBool bool ++ BitVec.ofBool ok

/-- `STATUS.ERR`. -/
def statusErr (st : BitVec 16) : Byte := st.extractLsb' 8 8

/-- `STATUS` bits 7:4, always 0. -/
def statusReserved (st : BitVec 16) : BitVec 4 := st.extractLsb' 4 4

/-- `STATUS.KIND`. -/
def statusKind (st : BitVec 16) : BitVec 2 := st.extractLsb' 2 2

/-- `STATUS.BOOL`. -/
def statusBool (st : BitVec 16) : Bool := st.getLsbD 1

/-- `STATUS.OK`. -/
def statusOk (st : BitVec 16) : Bool := st.getLsbD 0

/-- Success: `OK = 1`, `KIND = 0`, `ERR = 0` and the boolean result (R62 to R64). -/
def statusSuccess (bool : Bool) : BitVec 16 := statusWord 0x00#8 .noError bool true

/-- `ERR` of a code (R66). -/
def ErrCode.number : ErrCode → Byte
  | .encAudioType => 0x01#8
  | .encAudioLen => 0x02#8
  | .encLaneType => 0x03#8
  | .encLaneAscii => 0x04#8
  | .encLaneLen => 0x05#8
  | .encExtType => 0x06#8
  | .encExtLen => 0x07#8
  | .valRawType => 0x10#8
  | .valEmpty => 0x11#8
  | .valTypeId => 0x12#8
  | .valHdrShort => 0x13#8
  | .valAudioShort => 0x14#8
  | .valSilentShort => 0x15#8
  | .valAudioLong => 0x16#8
  | .valSilentLong => 0x17#8
  | .decRawType => 0x20#8
  | .decNotAudio => 0x21#8
  | .decShort => 0x22#8
  | .decLong => 0x23#8
  | .cmdIllegal => 0x7F#8

/-- The kind of a code (R66). The five type errors are reserved: no operation raises one (60_exceptions.md R193). -/
def ErrCode.kind : ErrCode → ErrKind
  | .encAudioType => .typeError
  | .encAudioLen => .valueError
  | .encLaneType => .typeError
  | .encLaneAscii => .valueError
  | .encLaneLen => .valueError
  | .encExtType => .typeError
  | .encExtLen => .valueError
  | .valRawType => .typeError
  | .valEmpty => .valueError
  | .valTypeId => .valueError
  | .valHdrShort => .valueError
  | .valAudioShort => .valueError
  | .valSilentShort => .valueError
  | .valAudioLong => .valueError
  | .valSilentLong => .valueError
  | .decRawType => .typeError
  | .decNotAudio => .valueError
  | .decShort => .valueError
  | .decLong => .valueError
  | .cmdIllegal => .commandError

/-- The message that names a code (R66). The block reports the number only (R65). -/
def ErrCode.message : ErrCode → String
  | .encAudioType => "audio_pcm must be Frame"
  | .encAudioLen => "audio_pcm length must be FRAME_LENGTH"
  | .encLaneType => "lane_name must be string"
  | .encLaneAscii => "non ascii characters are not allowed"
  | .encLaneLen => "over 3 characters string is not allowed"
  | .encExtType => "ext_bytes must be Uint8Array"
  | .encExtLen => "over 255 bytes data is not allowed"
  | .valRawType => "raw_packet must be byte sequence"
  | .valEmpty => "Empty array passed"
  | .valTypeId => "It is not an audio packet or silent audio packet"
  | .valHdrShort => "Too short bytes received, external bytes length missing"
  | .valAudioShort => "Too short bytes as audio packet"
  | .valSilentShort => "Too short bytes as silent audio packet"
  | .valAudioLong => "Too long bytes as audio packet"
  | .valSilentLong => "Too long bytes as silent audio packet"
  | .decRawType => "raw_packet must be byte sequence"
  | .decNotAudio => "Invalid packet, it is not an audio packet"
  | .decShort => "Invalid packet, too short bytes received"
  | .decLong => "Invalid packet, too long bytes received"
  | .cmdIllegal => "illegal command"

/-- `{E, 0b0000, KIND, 0b00}` (60_exceptions.md R196). -/
def statusError (e : ErrCode) : BitVec 16 := statusWord e.number e.kind false false

end Sys2Proof.Machine
end

