-- ==== Sys2Proof/Machine/Ops.lean ====
section
/-! DEFINITION. The named operations over the packet byte space and over transactions, with raising an error (the
machine's exception entry, 60_exceptions.md R196) and RESET. -/

namespace Sys2Proof.Machine

/-! ## The packet byte space (20_memory.md R30, R35, R36) -/

/-- What a byte inside the space that is not listed reads as: ENC starts from `rep(len, 0x00)`
(43_encoder.md R120; log 10). -/
def unlistedByte : Byte := 0x00#8

/-- The byte a list of cells holds at an offset. -/
def lookupCell : List Host.Cell → Nat → Byte
  | [], _ => unlistedByte
  | (k, b) :: cs, a => if k = a then b else lookupCell cs a

/-- A list of cells with the byte at offset `a` set, in the canonical form. -/
def setCell : List Host.Cell → Nat → Byte → List Host.Cell
  | [], a, b => if b = unlistedByte then [] else [(a, b)]
  | (k, v) :: cs, a, b =>
    if a < k then
      if b = unlistedByte then (k, v) :: cs else (a, b) :: (k, v) :: cs
    else if a = k then
      if b = unlistedByte then cs else (a, b) :: cs
    else (k, v) :: setCell cs a b

/-- The cells of consecutive bytes from offset `a` on. -/
def cellsFrom : Nat → List Byte → List Host.Cell
  | _, [] => []
  | a, b :: bs => if b = unlistedByte then cellsFrom (a + 1) bs else (a, b) :: cellsFrom (a + 1) bs

/-- Offsets rise strictly from `lo`, stay below `size`, and no cell holds the unlisted byte. -/
def cellsOk (size : Nat) : Nat → List Host.Cell → Bool
  | _, [] => true
  | lo, (k, b) :: cs => decide (lo ≤ k) && decide (k < size) && decide (b ≠ unlistedByte) && cellsOk size (k + 1) cs

/-- The canonical form of a packet byte space. -/
def Memory.wf (m : Memory) : Bool := cellsOk m.size 0 m.cells

/-- The space in which no byte exists. -/
def Memory.none : Memory := { size := 0, cells := [] }

/-- `rep(n, 0x00)`. -/
def Memory.blank (n : Nat) : Memory := { size := n, cells := [] }

/-- The space of a byte sequence. -/
def Memory.ofBytes (bs : List Byte) : Memory := { size := bs.length, cells := cellsFrom 0 bs }

/-- The byte sequence of a space, offset 0 first. -/
def Memory.toBytes (m : Memory) : List Byte := (List.range m.size).map (lookupCell m.cells)

/-- One byte; an offset at or above the size does not exist. -/
def Memory.read (m : Memory) (a : Nat) : Except Fault Byte :=
  if a < m.size then .ok (lookupCell m.cells a) else .error .outsidePacket

/-- Set one byte. -/
def Memory.write (m : Memory) (a : Nat) (b : Byte) : Except Fault Memory :=
  if a < m.size then .ok { m with cells := setCell m.cells a b } else .error .outsidePacket

/-- `MemRead(addr, n)`: the little-endian unsigned value of `n` bytes (R35; used with `n` in 1, 2). -/
def memRead (m : Memory) (addr : Nat) : Nat → Except Fault Nat
  | 0 => .ok 0
  | n + 1 => do
    let b ← m.read addr
    let hi ← memRead m (addr + 1) n
    return b.toNat + 256 * hi

/-- `MemWrite(addr, n, v)`: the `n` low bytes of `v`, the lowest first (R36; used with `n` in 1, 2). -/
def memWrite (m : Memory) (addr : Nat) : Nat → Nat → Except Fault Memory
  | 0, _ => .ok m
  | n + 1, v => do
    let m' ← m.write addr (BitVec.ofNat 8 v)
    memWrite m' (addr + 1) n (v / 256)

/-- `X[addr .. addr+n)`, each byte read once. -/
def readBytes (m : Memory) (addr : Nat) : Nat → Except Fault (List Byte)
  | 0 => .ok []
  | n + 1 => do
    let b ← m.read addr
    let rest ← readBytes m (addr + 1) n
    return b :: rest

/-- Bytes written verbatim at consecutive offsets. -/
def writeBytes (m : Memory) (addr : Nat) : List Byte → Except Fault Memory
  | [] => .ok m
  | b :: bs => do
    let m' ← memWrite m addr 1 b.toNat
    writeBytes m' (addr + 1) bs

/-- `n` samples, sample `i` being `to_bits16(MemRead(addr + 2*i, 2))` (42_frame_codec.md R111, R112). -/
def readSamples (m : Memory) (addr : Nat) : Nat → Except Fault (List Quantized)
  | 0 => .ok []
  | n + 1 => do
    let v ← memRead m addr 2
    let rest ← readSamples m (addr + 2) n
    return BitVec.ofNat 16 v :: rest

/-- `MemWrite(addr + 2*i, 2, qf[i])` for every sample (42_frame_codec.md R110, R111). -/
def writeSamples (m : Memory) (addr : Nat) : List Quantized → Except Fault Memory
  | [] => .ok m
  | q :: qs => do
    let m' ← memWrite m addr 2 q.toNat
    writeSamples m' (addr + 2) qs

/-! ## Transactions -/

/-- The local variables as an operation creates them (10_state.md R19, R20; log 9). -/
def Locals.initial (form : ValidatorForm) : Locals :=
  { vst := match form with
      | .stage => .stage .typeChk
      | .serial => .serial .type
    pos := 0, typ := 0#1, extLen := 0#8, expectedLen := 0, rem := 0, verdict := Option.none
    qf := [], silent := false, pkt := Memory.none }

/-- Accept a request: IDLE to BUSY (10_state.md R23), the operands taken by value (70_reset_and_hazards.md R226). -/
def accept (r : Request) (s : State) : State :=
  { s with activity := .busy { req := r, loc := Locals.initial s.form } }

/-- Give the response and go IDLE (10_state.md R23); every local ceases to exist (R24). -/
def respond (status : BitVec 16) (results : Results) (s : State) : State :=
  { s with activity := .idle, resp := some { status := status, results := results } }

/-- `raise` (60_exceptions.md R196): every local and every byte under construction is discarded, the response carries
the code and its kind and no result field, nothing is saved, and the block is IDLE. There is no return operation:
the next request is served as after a success (R198). -/
def raise (e : ErrCode) (s : State) : State := respond (statusError e) .nothing s

/-- RESET (70_reset_and_hazards.md R220): the block is IDLE, a transaction in progress is abandoned with no response,
no response is pending, nothing else changes. -/
def applyReset (s : State) : State := { s with activity := .idle, resp := Option.none }

/-- The state with new local variables in its transaction `t`. -/
def setLocals (t : Txn) (l : Locals) (s : State) : State := { s with activity := .busy { t with loc := l } }

/-- What the host does at this step. -/
def nextInput (s : State) : HostInput := s.inputs.headD .quiet

/-- The state once this step's input is taken; a response given by the step before is with the host (log 5). -/
def takeInput (s : State) : State := { s with inputs := s.inputs.tail, resp := Option.none }

/-- The outcome of a checked computation of the next state. -/
def toOutcome : Except Fault State → Host.Outcome State Fault Refusal
  | .ok s => .next s
  | .error f => .fault f

/-- Run the body of an operation on the transaction in progress. -/
def withTxn (s : State) (body : Txn → Except Fault State) : Host.Outcome State Fault Refusal :=
  match s.activity with
  | .idle => .fault .noTransaction
  | .busy t => toOutcome (body t)

end Sys2Proof.Machine
end

