-- ==== Sys2Proof/Machine/Operands.lean ====
section
/-! DEFINITION. The operand forms: which request can be presented, and the operands assembled from bytes
(30_encoding.md R67). -/

namespace Sys2Proof.Machine

/-- A request that can be presented (10_state.md R15; 93_implementation_defined.md U26): no sequence is longer than
its length field tells, and the operand of fixed size has that size. A request with an illegal command may carry
any operands (30_encoding.md R61). -/
def presentable (fl : Nat) (r : Request) : Bool :=
  r.lengthsOk &&
    match decodeCmd r.cmd with
    | .ok i => i.operandsOk fl r
    | .error _ => true

/-- A request presented while IDLE: accepted when it can be presented, else it is no request and has no effect
(log 6). -/
def offer (r : Request) (s : State) : State := if presentable s.frameLength r then accept r s else s

/-- The packet byte space `RAW` of VAL, VALS and DEC (20_memory.md R30). -/
def Txn.raw (t : Txn) : Memory := Memory.ofBytes t.req.raw

/-- The payload bytes a packet with this `typ` holds: `typ = 0 ? 2*FRAME_LENGTH : 0` (10_state.md R19). -/
def payloadBytes (fl : Nat) (typ : BitVec 1) : Nat := if typ = 0#1 then Config.payloadSize fl else 0

/-- `expected_len` (30_encoding.md R56), a natural number that never wraps; `ExtLen` is unsigned (20_memory.md R34). -/
def expectedLength (fl : Nat) (typ : BitVec 1) (extLen : Byte) : Nat :=
  Config.headerSize + payloadBytes fl typ + extLen.toNat

/-- `lane_field` (43_encoder.md R128): the name in the leading bytes, `0x00` in the rest. -/
def laneField (lane : List Byte) : List Byte := lane ++ List.replicate (Config.laneSize - lane.length) 0x00#8

/-- The length of the lane name in `RAW[1..4)` once trailing `0x00` is stripped: the loop of 45_decoder.md R170, which
starts at `m = 3` (R175). -/
def laneLength (raw : Memory) : Nat → Except Fault Nat
  | 0 => .ok 0
  | m + 1 => do
    let b ← raw.read (m + 1)
    if b = 0x00#8 then laneLength raw m else return m + 1

/-- A request that carries operands of zeros: frames and payload of zero samples, empty sequences. -/
def zeroRequest (fl : Nat) (cmd : Byte) : Request :=
  { cmd := cmd, qfIn := List.replicate fl 0#16, plIn := List.replicate (Config.payloadSize fl) 0x00#8
    audio := List.replicate fl 0#32 }

end Sys2Proof.Machine
end

