-- ==== Sys2Proof/Machine/Quantizer.lean ====
section
/-! DEFINITION. The Quantizer: QUANT and DEQUANT (40_quantizer.md). All arithmetic is exact, in natural numbers and
integers: a rational is a fraction of two naturals with a sign (log 17). -/

namespace Sys2Proof.Machine

/-- The class of a binary32 pattern (R81). -/
inductive Class32 where
  | nan
  | inf (negative : Bool)
  | finite
deriving DecidableEq, Repr

/-- The sign bit, bit 31 (R80). -/
def f32Negative (w : Sample) : Bool := w.getLsbD 31

/-- The biased exponent, bits 30:23 (R80). -/
def f32Exponent (w : Sample) : Nat := (w.extractLsb' 23 8).toNat

/-- The fraction, bits 22:0 (R80). -/
def f32Fraction (w : Sample) : Nat := (w.extractLsb' 0 23).toNat

/-- `class32` (R81). -/
def class32 (w : Sample) : Class32 :=
  if f32Exponent w = 255 then
    if f32Fraction w = 0 then .inf (f32Negative w) else .nan
  else .finite

/-- The integer significand of a finite pattern: `F`, or `2^23 + F` when it is normal (R81). -/
def f32Significand (w : Sample) : Nat :=
  if f32Exponent w = 0 then f32Fraction w else 2 ^ 23 + f32Fraction w

/-- The exponent `k` with `|value32(w)| = significand * 2^(k - 150)`: 1 for zeros and subnormals, else `E` (R81). -/
def f32Scale (w : Sample) : Nat := if f32Exponent w = 0 then 1 else f32Exponent w

/-- `rne_int` of the fraction `num / den` (R83): nearest integer, half way to the even one. -/
def rneDiv (num den : Nat) : Nat :=
  let n := num / den
  let twice := 2 * (num % den)
  if twice < den then n else if den < twice then n + 1 else if n % 2 = 0 then n else n + 1

/-- A magnitude with a sign; `rne_int(-r) = -rne_int(r)` (R83). -/
def signed (negative : Bool) (mag : Nat) : Int := if negative then -(mag : Int) else mag

/-- `sat16` (R84). -/
def sat16 (z : Int) : Int := max (-32768) (min 32767 z)

/-- `quantize` (R85): `|value32(w)| * 32767` is the fraction `significand * 32767 * 2^scale / 2^150`, rounded once. -/
def quantize (w : Sample) : Quantized :=
  match class32 w with
  | .nan => 0x0000#16
  | .inf negative => BitVec.ofInt 16 (if negative then -32768 else 32767)
  | .finite =>
    BitVec.ofInt 16 (sat16 (signed (f32Negative w)
      (rneDiv (f32Significand w * Config.scale * 2 ^ f32Scale w) (2 ^ 150))))

/-- `floor(log2(num / den))` (R82). -/
def floorLog2 (num den : Nat) : Int :=
  let e : Int := (Nat.log2 num : Int) - (Nat.log2 den : Int)
  if den * 2 ^ e.toNat ≤ num * 2 ^ (-e).toNat then e else e - 1

/-- `{ s, to_bits8(e + 127), to_bits23(m - 2^23) }` (R82). -/
def packF32 (negative : Bool) (e : Int) (m : Nat) : Sample :=
  BitVec.ofBool negative ++ BitVec.ofInt 8 (e + 127) ++ BitVec.ofNat 23 (m - 2 ^ 23)

/-- `rn32` of the signed fraction `num / den` (R82). -/
def rn32Div (negative : Bool) (num den : Nat) : Sample :=
  if num = 0 then 0x00000000#32
  else
    let e := floorLog2 num den
    let m := rneDiv (num * 2 ^ (23 - e).toNat) (den * 2 ^ (e - 23).toNat)
    if m = 2 ^ 24 then packF32 negative (e + 1) (2 ^ 23) else packF32 negative e m

/-- `dequantize` (R90): the exact quotient `sint(q) / 32767`, rounded once. -/
def dequantize (q : Quantized) : Sample :=
  rn32Div (decide (q.toInt < 0)) q.toInt.natAbs Config.scale

/-- QUANT (R85). -/
def execQuant (s : State) : Host.Outcome State Fault Refusal :=
  withTxn s fun t => .ok (respond (statusSuccess false) (.quantized (quantize t.req.sIn)) s)

/-- DEQUANT (R90). -/
def execDequant (s : State) : Host.Outcome State Fault Refusal :=
  withTxn s fun t => .ok (respond (statusSuccess false) (.sample (dequantize t.req.qIn)) s)

end Sys2Proof.Machine
end

