-- ==== Sys2Proof/Machine/Silence.lean ====
section
/-! DEFINITION. The Silence Detector: ISSIL (41_silence.md). -/

namespace Sys2Proof.Machine

/-- `is_silent` (R100): every element is the pattern `0x0000`. -/
def isSilent (qf : List Quantized) : Bool := qf.all fun q => q == 0x0000#16

/-- ISSIL (R100): the predicate is `STATUS.BOOL`. -/
def execIssil (s : State) : Host.Outcome State Fault Refusal :=
  withTxn s fun t => .ok (respond (statusSuccess (isSilent t.req.qfIn)) .nothing s)

end Sys2Proof.Machine
end

