-- ==== Sys2Proof/Machine/Encoder.lean ====
section
/-! DEFINITION. The Packet Encoder: ENC (43_encoder.md). -/

namespace Sys2Proof.Machine

/-- The checks in their order; the first that fails is the error (R121, R123 to R126). -/
def encCheck (fl : Nat) (r : Request) : Option ErrCode :=
  if r.audio.length ≠ fl then some .encAudioLen
  else if r.lane.any (fun c => decide (127 < c.toNat)) then some .encLaneAscii
  else if Config.laneSize < r.lane.length then some .encLaneLen
  else if Config.extMax < r.ext.length then some .encExtLen
  else none

/-- "quantize every sample of `audio` into a temporary quantized frame" (R127). -/
def encQuantize (r : Request) (l : Locals) : Locals := { l with qf := r.audio.map quantize }

/-- The Silence Detector over the temporary frame (R127; 10_state.md R20). -/
def encDetect (l : Locals) : Locals := { l with silent := isSilent l.qf }

/-- The bytes written in the order of R120: TypeId, LaneName, ExtLen, AudioPayload unless silent, ExtensionBytes. -/
def encEmit (fl : Nat) (r : Request) (l : Locals) : Except Fault Locals := do
  let base := Config.headerSize + payloadBytes fl (BitVec.ofBool l.silent)
  let m0 := Memory.blank (base + r.ext.length)
  let m1 ← memWrite m0 0 1 (if l.silent then Config.typeSilent else Config.typeNormal).toNat
  let m2 ← writeBytes m1 1 (laneField r.lane)
  let m3 ← memWrite m2 4 1 (BitVec.ofNat 8 r.ext.length).toNat
  let m4 ← if l.silent then pure m3 else writeSamples m3 Config.headerSize l.qf
  let m5 ← writeBytes m4 base r.ext
  return { l with pkt := m5 }

/-- ENC (R120): checks first, "performed before any byte is emitted"; then the algorithm. -/
def execEnc (s : State) : Host.Outcome State Fault Refusal :=
  withTxn s fun t =>
    match encCheck s.frameLength t.req with
    | some e => .ok (raise e s)
    | none => do
      let l ← encEmit s.frameLength t.req (encDetect (encQuantize t.req t.loc))
      return respond (statusSuccess false) (.packet l.pkt.toBytes) s

end Sys2Proof.Machine
end

