-- ==== Sys2Proof/Machine/FrameCodec.lean ====
section
/-! DEFINITION. The Frame Codec: FSER and FDES (42_frame_codec.md). `serFrame` and `desFrame` stand in Decode.lean. -/

namespace Sys2Proof.Machine

/-- FSER (R110). -/
def execFser (s : State) : Host.Outcome State Fault Refusal :=
  withTxn s fun t => .ok (respond (statusSuccess false) (.payload (serFrame t.req.qfIn)) s)

/-- FDES (R112). -/
def execFdes (s : State) : Host.Outcome State Fault Refusal :=
  withTxn s fun t => .ok (respond (statusSuccess false) (.frame (desFrame t.req.plIn)) s)

end Sys2Proof.Machine
end

