-- ==== Sys2Proof/Machine/Validator.lean ====
section
/-! DEFINITION. The Packet Validator: its stage machine and its byte-serial machine, VAL and VALS, and the two packet
tags PKT-N and PKT-S it reads (44_validator.md). -/

namespace Sys2Proof.Machine

/-- The strict error of a failing verdict (R140). -/
def strictErr : Verdict → Option ErrCode
  | .ok => none
  | .empty => some .valEmpty
  | .typeId => some .valTypeId
  | .hdrShort => some .valHdrShort
  | .audioShort => some .valAudioShort
  | .silentShort => some .valSilentShort
  | .audioLong => some .valAudioLong
  | .silentLong => some .valSilentLong

/-- "Too short" for the packet's `typ` (R147, R154). -/
def shortVerdict (typ : BitVec 1) : Verdict := if typ = 0#1 then .audioShort else .silentShort

/-- "Too long" for the packet's `typ` (R148, R154). -/
def longVerdict (typ : BitVec 1) : Verdict := if typ = 0#1 then .audioLong else .silentLong

/-! ## Reading a TypeId that is a tag -/

/-- `vst` awaits the TypeId and it is a tag: `typ` is set and the machine goes to its next state; the byte-serial
machine consumes the byte (R144, R153). -/
def takeTag (tag : BitVec 1) (l : Locals) : Except Fault Locals :=
  match l.vst with
  | .stage .typeId => .ok { l with typ := tag, vst := .stage .hdrLen }
  | .serial .type => .ok { l with typ := tag, vst := .serial .lane0, pos := l.pos + 1 }
  | _ => .error .noTypeIdAwaited

/-- PKT-N: the TypeId read is `0x10`, so `typ <- 0` (30_encoding.md R50, R51; R144, R153; log 7). -/
def execPktN (s : State) : Host.Outcome State Fault Refusal :=
  withTxn s fun t => do
    let l ← takeTag 0#1 t.loc
    return setLocals t l s

/-- PKT-S: the TypeId read is `0x11`, so `typ <- 1` (30_encoding.md R50, R51; R144, R153; log 7). -/
def execPktS (s : State) : Host.Outcome State Fault Refusal :=
  withTxn s fun t => do
    let l ← takeTag 1#1 t.loc
    return setLocals t l s

/-! ## The stage machine (R141 to R149) -/

/-- `verdict <- v; vst <- ST_REJECT`. -/
def rejectWith (v : Verdict) (l : Locals) : Locals := { l with verdict := some v, vst := .stage .reject }

/-- One stage, over the space `raw`. `ST_REJECT` is final; `ST_ACCEPT` gives the verdict `V_OK`. -/
def stageStep (fl : Nat) (raw : Memory) (l : Locals) : Except Fault Locals :=
  match l.vst with
  | .serial _ => .error .validatorState
  | .stage .typeChk => .ok { l with vst := .stage .empty }
  | .stage .empty =>
    .ok (if raw.size = 0 then rejectWith .empty l else { l with vst := .stage .typeId })
  | .stage .typeId => do
    let b ← raw.read 0
    match decodeTag b with
    | .ok i => takeTag (if i = .pktN then 0#1 else 1#1) l
    | .error _ => return rejectWith .typeId l
  | .stage .hdrLen =>
    .ok (if raw.size < Config.headerSize then rejectWith .hdrShort l else { l with vst := .stage .extLen })
  | .stage .extLen => do
    let b ← raw.read 4
    return { l with extLen := b, expectedLen := expectedLength fl l.typ b, vst := .stage .short }
  | .stage .short =>
    .ok (if raw.size < l.expectedLen then rejectWith (shortVerdict l.typ) l else { l with vst := .stage .long })
  | .stage .long =>
    .ok (if l.expectedLen < raw.size then rejectWith (longVerdict l.typ) l else { l with vst := .stage .accept })
  | .stage .accept => .ok { l with verdict := some .ok }
  | .stage .reject => .ok l

/-- `n` stages. -/
def runStages (fl : Nat) (raw : Memory) : Nat → Locals → Except Fault Locals
  | 0, l => .ok l
  | n + 1, l => do
    let l' ← stageStep fl raw l
    runStages fl raw n l'

/-- The verdict of the stage machine: created at `ST_TYPECHK`, at most eight transitions (R141). -/
def validate (fl : Nat) (raw : Memory) : Except Fault Verdict := do
  let l ← runStages fl raw 8 (Locals.initial .stage)
  match l.verdict with
  | some v => return v
  | none => .error .validatorState

/-! ## The byte-serial machine (R152 to R154) -/

/-- The state once `rem` is known: `rem = 0 ? BS_FULL : BS_BODY`. -/
def bodyState (rem : Nat) : VState := .serial (if rem = 0 then .full else .body)

/-- One step on the next byte, then `pos <- pos + 1` (R153). -/
def serialStep (fl : Nat) (b : Byte) (l : Locals) : Except Fault Locals :=
  match l.vst with
  | .stage _ => .error .validatorState
  | .serial .type =>
    match decodeTag b with
    | .ok i => takeTag (if i = .pktN then 0#1 else 1#1) l
    | .error _ => .ok { l with vst := .serial .badType, pos := l.pos + 1 }
  | .serial .lane0 => .ok { l with vst := .serial .lane1, pos := l.pos + 1 }
  | .serial .lane1 => .ok { l with vst := .serial .lane2, pos := l.pos + 1 }
  | .serial .lane2 => .ok { l with vst := .serial .extLen, pos := l.pos + 1 }
  | .serial .extLen =>
    let rem := payloadBytes fl l.typ + b.toNat
    .ok { l with extLen := b, rem := rem, vst := bodyState rem, pos := l.pos + 1 }
  | .serial .body => .ok { l with rem := l.rem - 1, vst := bodyState (l.rem - 1), pos := l.pos + 1 }
  | .serial .full => .ok { l with vst := .serial .over, pos := l.pos + 1 }
  | .serial .over => .ok { l with pos := l.pos + 1 }
  | .serial .badType => .ok { l with pos := l.pos + 1 }

/-- The machine run over a byte sequence. -/
def runSerial (fl : Nat) : List Byte → Locals → Except Fault Locals
  | [], l => .ok l
  | b :: bs, l => do
    let l' ← serialStep fl b l
    runSerial fl bs l'

/-- The verdict when all bytes are consumed (R154). -/
def serialVerdict (l : Locals) : Except Fault Verdict :=
  match l.vst with
  | .stage _ => .error .validatorState
  | .serial .type => .ok .empty
  | .serial .badType => .ok .typeId
  | .serial .lane0 => .ok .hdrShort
  | .serial .lane1 => .ok .hdrShort
  | .serial .lane2 => .ok .hdrShort
  | .serial .extLen => .ok .hdrShort
  | .serial .body => .ok (shortVerdict l.typ)
  | .serial .full => .ok .ok
  | .serial .over => .ok (longVerdict l.typ)

/-! ## VAL and VALS -/

/-- VAL's answer to a verdict (R150): every failure collapses to `false`. -/
def answerVal (v : Verdict) (s : State) : State := respond (statusSuccess (decide (v = .ok))) .nothing s

/-- VALS' answer to a verdict (R151): the failing verdict is raised. -/
def answerVals (v : Verdict) (s : State) : State :=
  match strictErr v with
  | none => respond (statusSuccess true) .nothing s
  | some e => raise e s

/-- VAL (R150). -/
def execVal (s : State) : Host.Outcome State Fault Refusal :=
  withTxn s fun t => do
    let v ← validate s.frameLength t.raw
    return answerVal v s

/-- VALS (R151). -/
def execVals (s : State) : Host.Outcome State Fault Refusal :=
  withTxn s fun t => do
    let v ← validate s.frameLength t.raw
    return answerVals v s

end Sys2Proof.Machine
end

