-- ==== Sys2Proof/Machine/PacketDecoder.lean ====
section
/-! DEFINITION. The Packet Decoder: DEC (45_decoder.md). -/

namespace Sys2Proof.Machine

/-- `dec_err` (R172). -/
def decErr : Verdict → Option ErrCode
  | .ok => none
  | .typeId => some .decNotAudio
  | .audioShort => some .decShort
  | .silentShort => some .decShort
  | .hdrShort => some .decShort
  | .empty => some .decShort
  | .audioLong => some .decLong
  | .silentLong => some .decLong

/-- The results read from a packet found well formed (R170, R173 to R176). -/
def decResults (fl : Nat) (raw : Memory) : Except Fault Results := do
  let n ← memRead raw 4 1
  let tag ← raw.read 0
  let typ : BitVec 1 := if tag = Config.typeSilent then 1#1 else 0#1
  let frame ←
    if typ = 1#1 then pure (List.replicate fl 0x00000000#32)
    else do
      let qs ← readSamples raw Config.headerSize fl
      pure (qs.map dequantize)
  let m ← laneLength raw Config.laneSize
  let lane ← readBytes raw 1 m
  let ext ← readBytes raw (Config.headerSize + payloadBytes fl typ) n
  return .decoded frame lane ext

/-- DEC's answer to a verdict (R170, R172, R177): results only on `V_OK`. -/
def answerDec (v : Verdict) (t : Txn) (s : State) : Except Fault State :=
  match decErr v with
  | some e => .ok (raise e s)
  | none => do
    let results ← decResults s.frameLength t.raw
    return respond (statusSuccess false) results s

/-- DEC (R170). -/
def execDec (s : State) : Host.Outcome State Fault Refusal :=
  withTxn s fun t => do
    let v ← validate s.frameLength t.raw
    answerDec v t s

end Sys2Proof.Machine
end

