-- ==== Sys2Proof/Machine/Dispatch.lean ====
section
/-! DEFINITION. One arm per row of the opcode table. -/

namespace Sys2Proof.Machine

/-- What an instruction does, in the transaction in progress. -/
def exec (i : Instr) (s : State) : Host.Outcome State Fault Refusal :=
  match i with
  | .quant => Sys2Proof.Machine.execQuant s
  | .dequant => Sys2Proof.Machine.execDequant s
  | .issil => Sys2Proof.Machine.execIssil s
  | .fser => Sys2Proof.Machine.execFser s
  | .fdes => Sys2Proof.Machine.execFdes s
  | .enc => Sys2Proof.Machine.execEnc s
  | .val => Sys2Proof.Machine.execVal s
  | .vals => Sys2Proof.Machine.execVals s
  | .dec => Sys2Proof.Machine.execDec s
  | .pktN => Sys2Proof.Machine.execPktN s
  | .pktS => Sys2Proof.Machine.execPktS s

end Sys2Proof.Machine
end

