-- ==== Sys2Proof/Machine/Run.lean ====
section
/-! DEFINITION. What a step does to a BUSY block: the command of the transaction is fetched, decoded and run, at once
or, where the instance is built with the byte-serial validator, one byte of RAW a step. And where a word stands
that the next step is to fetch. -/

namespace Sys2Proof.Machine

/-- The three operations that run the Packet Validator (10_state.md R19). -/
def usesValidator : Instr → Bool
  | .val => true
  | .vals => true
  | .dec => true
  | .quant => false
  | .dequant => false
  | .issil => false
  | .fser => false
  | .fdes => false
  | .enc => false
  | .pktN => false
  | .pktS => false

/-- The final step of a byte-serial validation (44_validator.md R154): the operation answers the verdict. -/
def serialFinish (i : Instr) (t : Txn) (s : State) : Except Fault State := do
  let v ← serialVerdict t.loc
  match i with
  | .val => return answerVal v s
  | .vals => return answerVals v s
  | .dec => answerDec v t s
  | .quant => .error .validatorState
  | .dequant => .error .validatorState
  | .issil => .error .validatorState
  | .fser => .error .validatorState
  | .fdes => .error .validatorState
  | .enc => .error .validatorState
  | .pktN => .error .validatorState
  | .pktS => .error .validatorState

/-- One step of a byte-serial validation (R152 to R154): the next byte of RAW is consumed; a tag at `BS_TYPE` is the
row PKT-N or PKT-S; with no byte left the operation `i` answers. -/
def serialAdvance (i : Instr) (t : Txn) (s : State) : Host.Outcome State Fault Refusal :=
  match t.raw.read t.loc.pos with
  | .error _ => toOutcome (serialFinish i t s)
  | .ok b =>
    match t.loc.vst, decodeTag b with
    | .serial .type, .ok tag => exec tag s
    | _, _ =>
      toOutcome do
        let l ← serialStep s.frameLength b t.loc
        return setLocals t l s

/-- What a step does once its input is taken: an IDLE block waits (70_reset_and_hazards.md R222); a BUSY one runs
its command; a `CMD` that names no operation raises `E_CMD_ILLEGAL`, no operand read (30_encoding.md R61). -/
def advance (s : State) : Host.Outcome State Fault Refusal :=
  match s.activity with
  | .idle => .next s
  | .busy t =>
    match decodeCmd t.req.cmd with
    | .error _ => .next (raise .cmdIllegal s)
    | .ok i =>
      if s.form = .serial ∧ usesValidator i = true then serialAdvance i t s else exec i s

/-- The operands a placed word runs on: those of the transaction in progress, else zeros. -/
def placedOperands (s : State) : Request :=
  match s.activity with
  | .idle => zeroRequest s.frameLength 0x00#8
  | .busy t => t.req

/-- The state whose next step fetches and runs the byte `w`: a host that stays quiet at that step, and a transaction
in progress, accepted with `CMD = w`; for a packet tag, a byte-serial VAL of `RAW = [w]` at its first byte (log 15). -/
def placeWord (s : State) (nbits w : Nat) : State :=
  let b := BitVec.ofNat 8 (w % 2 ^ nbits)
  let quietly := { s with inputs := .quiet :: s.inputs }
  match decodeTag b with
  | .ok _ => accept { placedOperands s with cmd := encode .val, raw := [b] } { quietly with form := .serial }
  | .error _ => accept { placedOperands s with cmd := b } quietly

end Sys2Proof.Machine
end

