-- ==== Sys2Proof/Machine/Step.lean ====
section
/-! DEFINITION. The step: the host's input of the step first, then the block. -/

namespace Sys2Proof.Machine

/-- One step (logs 3 to 5). RESET acts in every state (70_reset_and_hazards.md R220). A request is accepted by an
IDLE block only (10_state.md R23); presented while BUSY it is not accepted and has no effect on the transaction in
progress (R225). Otherwise the block goes on with what it is doing. -/
def step (s : State) : Host.Outcome State Fault Refusal :=
  match nextInput s with
  | .reset => .next (applyReset (takeInput s))
  | .quiet => advance (takeInput s)
  | .request r =>
    match s.activity with
    | .idle => .next (offer r (takeInput s))
    | .busy _ => advance (takeInput s)

/-- `s` with the word `w` of `nbits` bits where the next step fetches. -/
def State.withFetchWord (s : State) (nbits w : Nat) : State := placeWord s nbits w

end Sys2Proof.Machine
end

