-- ==== Sys2Proof/Machine/Reference.lean ====
section
/-! DEFINITION. The spec's closed forms, in the spec's own mathematics: rationals for the Quantizer (40_quantizer.md
R81 to R86, R90, R91), byte sequences for packets (R127, R158, R173 to R176), and the response as a function of the
request (10_state.md R10). The machine does not call them; the statements compare it with them. -/

namespace Sys2Proof.Machine

/-! ## Quantizer -/

/-- The sign `sg` of a pattern (R81). -/
def f32SignQ (w : Sample) : ℚ := if f32Negative w then -1 else 1

/-- `value32` of a finite pattern (R81); it is used at finite patterns only. -/
def value32 (w : Sample) : ℚ :=
  if f32Exponent w = 0 then f32SignQ w * f32Fraction w * (2 : ℚ) ^ (-149 : ℤ)
  else f32SignQ w * (2 ^ 23 + f32Fraction w) * (2 : ℚ) ^ ((f32Exponent w : ℤ) - 150)

/-- `rne_int` (R83). -/
def rneInt (r : ℚ) : ℤ :=
  let n := ⌊r⌋
  let d := r - n
  if d < 1 / 2 then n else if 1 / 2 < d then n + 1 else if n % 2 = 0 then n else n + 1

/-- `quantize` as the rule writes it (R85). -/
def quantizeQ (w : Sample) : Quantized :=
  match class32 w with
  | .nan => 0x0000#16
  | .inf negative => BitVec.ofInt 16 (if negative then -32768 else 32767)
  | .finite => BitVec.ofInt 16 (sat16 (rneInt (value32 w * 32767)))

/-- The bit-level form of `quantize` (R86). -/
def quantizeBits (w : Sample) : Quantized :=
  if f32Exponent w = 255 then
    if f32Fraction w ≠ 0 then 0x0000#16 else if f32Negative w then 0x8000#16 else 0x7FFF#16
  else if f32Exponent w = 0 then 0x0000#16
  else
    let big := 32767 * (2 ^ 23 + f32Fraction w)
    let k : ℤ := 150 - f32Exponent w
    let mag : ℕ :=
      if k ≤ 0 then 32768
      else if 40 < k then 0
      else
        let fl := big >>> k.toNat
        let r := big % 2 ^ k.toNat
        let h := 2 ^ (k.toNat - 1)
        if h < r ∨ (r = h ∧ fl % 2 = 1) then fl + 1 else fl
    BitVec.ofInt 16 (sat16 (if f32Negative w then -(mag : ℤ) else mag))

/-- `rn32` (R82), with `floor(log2(a))` as Mathlib's `Int.log 2 a`. -/
def rn32 (r : ℚ) : Sample :=
  if r = 0 then 0x00000000#32
  else
    let a := |r|
    let e := Int.log 2 a
    let m := rneInt (a * (2 : ℚ) ^ (23 - e))
    if m = 2 ^ 24 then packF32 (decide (r < 0)) (e + 1) (2 ^ 23) else packF32 (decide (r < 0)) e m.toNat

/-- The number of bits of a positive number (R91). -/
def bitLength (a : ℕ) : ℕ := Nat.log2 a + 1

/-- The exponent of the closed form of `dequantize` (R91). -/
def dequantizeExponent (a : ℕ) : ℤ := if a = 32767 ∨ a = 32768 then 0 else (bitLength a : ℤ) - 16

/-- The closed form of `dequantize` for `sint(q) != 0` (R91). -/
def dequantizeClosed (q : Quantized) : Sample :=
  let a := q.toInt.natAbs
  let e := dequantizeExponent a
  packF32 (decide (q.toInt < 0)) e (rneInt ((a : ℚ) * (2 : ℚ) ^ (23 - e) / 32767)).toNat

/-! ## Packets -/

/-- `validate_core` (44_validator.md R158). -/
def validateCore (fl : ℕ) (raw : List Byte) : Verdict :=
  if raw.length = 0 then .empty
  else if raw.getD 0 0 ≠ 0x10#8 ∧ raw.getD 0 0 ≠ 0x11#8 then .typeId
  else if raw.length < 5 then .hdrShort
  else
    let expected := 5 + (if raw.getD 0 0 = 0x10#8 then 2 * fl else 0) + (raw.getD 4 0).toNat
    if raw.length < expected then (if raw.getD 0 0 = 0x10#8 then .audioShort else .silentShort)
    else if expected < raw.length then (if raw.getD 0 0 = 0x10#8 then .audioLong else .silentLong)
    else .ok

/-- The verdict of the byte-serial machine on a whole sequence (R153, R154). -/
def serialCore (fl : ℕ) (raw : List Byte) : Except Fault Verdict := do
  let l ← runSerial fl raw (Locals.initial .serial)
  serialVerdict l

/-- `PKT` of an ENC whose checks pass (43_encoder.md R127). -/
def encodedBytes (r : Request) : List Byte :=
  let qf := r.audio.map quantize
  [if isSilent qf then 0x11#8 else 0x10#8] ++ laneField r.lane ++ [BitVec.ofNat 8 r.ext.length] ++
    (if isSilent qf then [] else serFrame qf) ++ r.ext

/-- The lane field with every trailing `0x00` byte removed (45_decoder.md R175). -/
def stripPadding (field : List Byte) : List Byte := (field.reverse.dropWhile (· == 0x00#8)).reverse

/-- What DEC returns for a packet (R173 to R176). -/
def decodedOf (fl : ℕ) : Packet → Results
  | .normal lane qs ext => .decoded (qs.map dequantize) (stripPadding lane) ext
  | .silent lane ext => .decoded (List.replicate fl 0x00000000#32) (stripPadding lane) ext

/-! ## The response as a function of the request (10_state.md R10) -/

/-- A success response with no boolean. -/
def successWith (results : Results) : Response := { status := 0x0001#16, results := results }

/-- A boolean answer (30_encoding.md R64). -/
def booleanResponse (b : Bool) : Response := { status := if b then 0x0003#16 else 0x0001#16, results := .nothing }

/-- An error response (60_exceptions.md R196). -/
def errorResponse (e : ErrCode) : Response := { status := statusError e, results := .nothing }

/-- The response of an operation to its request. -/
def operationResponse (fl : ℕ) (r : Request) : Instr → Response
  | .quant => successWith (.quantized (quantizeQ r.sIn))
  | .dequant => successWith (.sample (rn32 ((r.qIn.toInt : ℚ) / 32767)))
  | .issil => booleanResponse (decide (∀ q ∈ r.qfIn, q = 0x0000#16))
  | .fser => successWith (.payload (serFrame r.qfIn))
  | .fdes => successWith (.frame (desFrame r.plIn))
  | .enc =>
    match encCheck fl r with
    | some e => errorResponse e
    | none => successWith (.packet (encodedBytes r))
  | .val => booleanResponse (decide (validateCore fl r.raw = .ok))
  | .vals =>
    match strictErr (validateCore fl r.raw) with
    | some e => errorResponse e
    | none => booleanResponse true
  | .dec =>
    match decErr (validateCore fl r.raw) with
    | some e => errorResponse e
    | none => successWith ((Packet.decode fl r.raw).elim .nothing (decodedOf fl))
  | .pktN => errorResponse .cmdIllegal
  | .pktS => errorResponse .cmdIllegal

/-- The response to a request: an illegal command answers `E_CMD_ILLEGAL` (30_encoding.md R61). The decoder of
commands never gives a packet row. -/
def answer (fl : ℕ) (r : Request) : Response :=
  match decodeCmd r.cmd with
  | .error _ => errorResponse .cmdIllegal
  | .ok i => operationResponse fl r i

end Sys2Proof.Machine
end

