-- ==== Sys2Proof/Safety.lean ====
section
/-! DEFINITION. The terms the statements use: the invariant of the machine, legal responses, runs. -/

namespace Sys2Proof.Machine

/-- The codes some operation raises: all but the five reserved type errors (60_exceptions.md R192, R193). -/
def ErrCode.raisable (e : ErrCode) : Bool := decide (e.kind ≠ .typeError)

/-- The values `STATUS` can take with no result field: a boolean answer, or a raisable error (30_encoding.md R64). -/
def plainStatus (st : BitVec 16) : Prop :=
  st = 0x0001#16 ∨ st = 0x0003#16 ∨ ∃ e : ErrCode, e.raisable = true ∧ st = statusError e

/-- A response the block may give: `STATUS` by 30_encoding.md R64, result fields of the sizes of 10_state.md R16. -/
def Response.legal (fl : Nat) (r : Response) : Prop :=
  match r.results with
  | .nothing => plainStatus r.status
  | .quantized _ => r.status = 0x0001#16
  | .sample _ => r.status = 0x0001#16
  | .frame qf => r.status = 0x0001#16 ∧ qf.length = fl
  | .payload pl => r.status = 0x0001#16 ∧ pl.length = 2 * fl
  | .packet pkt => r.status = 0x0001#16 ∧ 5 ≤ pkt.length ∧ pkt.length ≤ Config.maxPacket fl
  | .decoded f lane ext => r.status = 0x0001#16 ∧ f.length = fl ∧ lane.length ≤ 3 ∧ ext.length ≤ 255

/-- The command byte selects an operation that runs the validator. -/
def Request.validates (r : Request) : Bool :=
  match decodeCmd r.cmd with
  | .ok i => usesValidator i
  | .error _ => false

/-- How far a transaction has come: a byte-serial validation has consumed the first `pos` bytes of RAW and holds what
its machine makes of them; every other transaction is at its start. -/
def Txn.progress (fl : Nat) (form : ValidatorForm) (t : Txn) : Prop :=
  if form = .serial ∧ Request.validates t.req = true then
    t.loc.pos ≤ t.req.raw.length ∧
      runSerial fl (t.req.raw.take t.loc.pos) (Locals.initial .serial) = .ok t.loc
  else t.loc = Locals.initial form

/-- The invariant: `FRAME_LENGTH` in its range; a response is given only on going IDLE and is a legal one; a
transaction in progress has a request that could be presented, and stands where its operation can stand. -/
def State.Inv (s : State) : Prop :=
  frameLengthOk s.frameLength = true ∧
    (∀ r, s.resp = some r → s.activity = .idle ∧ r.legal s.frameLength) ∧
    ∀ t, s.activity = .busy t → presentable s.frameLength t.req = true ∧ t.progress s.frameLength s.form

/-- The responses given in the next `n` steps, in order. -/
def trace : Nat → State → List Response
  | 0, _ => []
  | n + 1, s =>
    match step s with
    | .next s' => s'.resp.toList ++ trace n s'
    | .fault _ => []
    | .refused _ => []

/-- A synchronous host: each request is presented, then one quiet step lets the block answer. -/
def synchronous (rs : List Request) : List HostInput := rs.flatMap fun r => [.request r, .quiet]

/-- The state a transaction leaves: IDLE with its response, the constants and the host's later inputs as they were. -/
def State.completed (s : State) (r : Response) : State := { s with activity := .idle, resp := some r }

/-- The verdict the stage machine gives a received byte sequence. -/
def packetVerdict (fl : Nat) (raw : List Byte) : Except Fault Verdict := validate fl (Memory.ofBytes raw)

/-- The number of a stage in the order of 44_validator.md R141. -/
def Stage.rank : Stage → Nat
  | .typeChk => 0
  | .empty => 1
  | .typeId => 2
  | .hdrLen => 3
  | .extLen => 4
  | .short => 5
  | .long => 6
  | .accept => 7
  | .reject => 8

/-- Two requests agree on the operand fields that operation `i` reads (10_state.md R17). -/
def agreesOn (i : Instr) (r r' : Request) : Prop :=
  match i with
  | .quant => r.sIn = r'.sIn
  | .dequant => r.qIn = r'.qIn
  | .issil => r.qfIn = r'.qfIn
  | .fser => r.qfIn = r'.qfIn
  | .fdes => r.plIn = r'.plIn
  | .enc => r.audio = r'.audio ∧ r.lane = r'.lane ∧ r.ext = r'.ext
  | .val => r.raw = r'.raw
  | .vals => r.raw = r'.raw
  | .dec => r.raw = r'.raw
  | .pktN => r.raw = r'.raw
  | .pktS => r.raw = r'.raw

/-- The operands of an ENC whose four checks pass (43_encoder.md R121, R123 to R125). -/
def encodable (fl : Nat) (r : Request) : Prop :=
  r.audio.length = fl ∧ (∀ c ∈ r.lane, c.toNat ≤ 127) ∧ r.lane.length ≤ 3 ∧ r.ext.length ≤ 255

/-- A sample the round-trip contract speaks of: finite, of magnitude at most 1 (40_quantizer.md R93). -/
def inRange (w : Sample) : Prop := class32 w = .finite ∧ |value32 w| ≤ 1

end Sys2Proof.Machine
end

