-- ==== Sys2Proof/Certificates/Slice0/Obligations.lean ====
section
/-! DEFINITION. The statements for the provers, in the order of OBLIGATIONS.json. -/

open Sys2Proof Sys2Proof.Machine

/-! ## Words -/

/-- The legal values of `CMD` are 0x00 to 0x07 and 0x16, each naming its operation (R60, spelled out byte by byte),
and the two tags name the packet formats (R51). -/
def Obligations.WordsDecodeToTheirRows : Prop :=
  decodeCmd 0x00#8 = .ok .quant ∧ decodeCmd 0x01#8 = .ok .dequant ∧ decodeCmd 0x02#8 = .ok .issil ∧
  decodeCmd 0x03#8 = .ok .fser ∧ decodeCmd 0x04#8 = .ok .fdes ∧ decodeCmd 0x05#8 = .ok .enc ∧
  decodeCmd 0x06#8 = .ok .val ∧ decodeCmd 0x16#8 = .ok .vals ∧ decodeCmd 0x07#8 = .ok .dec ∧
  decodeTag 0x10#8 = .ok .pktN ∧ decodeTag 0x11#8 = .ok .pktS

/-- Every row's byte decodes to the row, in its own byte space; a byte that decodes to a row in a byte space is the
row's byte, so no other byte does (R59, R60, R51, R57). -/
def Obligations.RowBytesDecodeAndEncode : Prop :=
  (∀ i : Instr, decodeIn i.space (encode i) = .ok i) ∧
  ∀ (sp : CodeSpace) (b : Byte) (i : Instr), decodeIn sp b = .ok i → i.space = sp ∧ encode i = b

/-- A packet's bytes decode to the packet, with every field at every value the format admits (R50 to R56). -/
def Obligations.PacketDecodeEncodeRoundTrip : Prop :=
  ∀ (fl : Nat) (p : Packet), p.wf fl = true → Packet.decode fl p.encode = some p

/-- A byte sequence that decodes is the encoding of a well-formed packet: no bit of it is dropped (R50 to R56). -/
def Obligations.PacketEncodeDecodeRoundTrip : Prop :=
  ∀ (fl : Nat) (raw : List Byte) (p : Packet), Packet.decode fl raw = some p → p.wf fl = true ∧ p.encode = raw

/-! ## The machine's step -/

/-- When the block is BUSY and its `CMD` decodes to `i`, a step whose input is no RESET takes the input and is `exec i`
on the state that leaves, where the validator is not byte-serial or `i` does not validate. -/
def Obligations.StepRunsTheDecodedCommand : Prop :=
  ∀ (s : State) (t : Txn) (i : Instr), s.activity = .busy t → decodeCmd t.req.cmd = .ok i →
    nextInput s ≠ .reset → (s.form = .stage ∨ usesValidator i = false) →
    step s = exec i (takeInput s)

/-- When a byte-serial validation awaits the TypeId and the byte of RAW at `pos` is a tag, a step whose input is no
RESET takes the input and is `exec` of the tag's row. -/
def Obligations.StepRunsTheDecodedTag : Prop :=
  ∀ (s : State) (t : Txn) (i tag : Instr) (b : Byte), s.form = .serial → s.activity = .busy t →
    decodeCmd t.req.cmd = .ok i → usesValidator i = true → nextInput s ≠ .reset →
    t.loc.vst = .serial .type → t.raw.read t.loc.pos = .ok b → decodeTag b = .ok tag →
    step s = exec tag (takeInput s)

/-- A command that is none of the nine legal values answers `STATUS = 0x7F0C` and no result field, whatever its
operands and its local variables are, and leaves the block IDLE (R61). -/
def Obligations.IllegalCommandAnswersCommandError : Prop :=
  ∀ (s : State) (t : Txn), s.activity = .busy t →
    t.req.cmd ∉ [0x00#8, 0x01#8, 0x02#8, 0x03#8, 0x04#8, 0x05#8, 0x06#8, 0x07#8, 0x16#8] →
    nextInput s ≠ .reset →
    step s = .next ((takeInput s).completed { status := 0x7F0C#16, results := .nothing })

/-- An IDLE block accepts a request that can be presented and is BUSY with its operands and fresh local variables;
with no request it stays IDLE (R23). That acceptance is a step of its own, and that a record which cannot be presented
is passed over, are the model's choices (logs 4 and 6). -/
def Obligations.IdleBlockAcceptsOneRequest : Prop :=
  ∀ s : State, s.activity = .idle →
    (∀ r rest, s.inputs = .request r :: rest → presentable s.frameLength r = true →
      step s = .next { s with activity := .busy { req := r, loc := Locals.initial s.form }, resp := none, inputs := rest }) ∧
    (∀ r rest, s.inputs = .request r :: rest → presentable s.frameLength r = false →
      step s = .next { s with resp := none, inputs := rest }) ∧
    (nextInput s = .quiet → step s = .next { s with resp := none, inputs := s.inputs.tail })

/-- A request presented while BUSY has no effect: the step is the one a quiet host would have seen (R225). -/
def Obligations.RequestWhileBusyHasNoEffect : Prop :=
  ∀ (s : State) (t : Txn) (r : Request) (rest : List HostInput), s.activity = .busy t →
    s.inputs = .request r :: rest → step s = step { s with inputs := .quiet :: rest }

/-- RESET in any state: IDLE, no response pending, the transaction in progress abandoned without one, the constants
as they were (R220). -/
def Obligations.ResetAbandonsAndIdles : Prop :=
  ∀ (s : State) (rest : List HostInput), s.inputs = .reset :: rest →
    step s = .next { s with activity := .idle, resp := none, inputs := rest }

/-- `FRAME_LENGTH`, and which machine the instance was built with, are written by no step (R11, R221). -/
def Obligations.ConstantsAreWrittenByNothing : Prop :=
  ∀ s s' : State, step s = .next s' → s'.frameLength = s.frameLength ∧ s'.form = s.form

/-- The invariant holds of every instance right after reset. -/
def Obligations.ResetMeetsTheInvariant : Prop :=
  State.Inv State.reset ∧
  ∀ (fl : Nat) (form : ValidatorForm), frameLengthOk fl = true → (State.afterReset fl form).Inv

/-- Every step keeps the invariant: `FRAME_LENGTH` in range, a response only on going IDLE and only a legal one, a
transaction where its operation can stand. -/
def Obligations.StepKeepsTheInvariant : Prop :=
  ∀ s s' : State, s.Inv → step s = .next s' → s'.Inv

/-- From a state that meets the invariant no step faults or is refused: no access leaves the packet, no operation
waits (R35, R36, R228). -/
def Obligations.EveryStepHasANextState : Prop :=
  ∀ s : State, s.Inv → ∃ s', step s = .next s'

/-- `pos` never exceeds `|RAW|`, `rem` is at most `2*FRAME_LENGTH + 255`, and all three counters fit 16 bits (R12,
R19, R153). `expected_len` is the stage machine's, which runs within one step: after any number of its stages it is at
most `MAX_PACKET`, and from `ST_SHORT` on it is the number of R146, at least 5. -/
def Obligations.CountersFitSixteenBits : Prop :=
  (∀ (s : State) (t : Txn), s.Inv → s.activity = .busy t →
    t.loc.pos ≤ t.req.raw.length ∧ t.loc.pos ≤ 65535 ∧ t.loc.rem ≤ 2 * s.frameLength + 255 ∧ t.loc.rem ≤ 65529 ∧
      t.loc.expectedLen ≤ 65535) ∧
  ∀ (fl n : Nat) (raw : List Byte) (l : Locals), frameLengthOk fl = true →
    runStages fl (Memory.ofBytes raw) n (Locals.initial .stage) = .ok l →
    l.expectedLen ≤ Config.maxPacket fl ∧ Config.maxPacket fl ≤ 65535 ∧
      (l.vst = .stage .short ∨ l.vst = .stage .long ∨ l.vst = .stage .accept →
        5 ≤ l.expectedLen ∧ raw[4]? = some l.extLen ∧
          l.expectedLen = 5 + (if l.typ = 0#1 then 2 * fl else 0) + l.extLen.toNat)

/-! ## Transactions -/

/-- A transaction that runs at once gives, whatever state the block is in, the response that is a function of its
request and `FRAME_LENGTH` alone, and leaves nothing else behind (R10, R14, R196, R198). -/
def Obligations.TransactionAnswersByItsRequest : Prop :=
  ∀ (s : State) (t : Txn), s.activity = .busy t → nextInput s ≠ .reset →
    (s.form = .stage ∨ Request.validates t.req = false) →
    step s = .next ((takeInput s).completed (answer s.frameLength t.req))

/-- A byte-serial validation takes `|RAW|` steps and one final step to the very response of the other form, whatever
requests the host presents meanwhile, unless RESET cuts it (R155, R225, R228). The number of steps is the model's
choice (logs 2 and 4): R231 gives it as an illustration that binds no implementation. -/
def Obligations.SerialTransactionAnswersTheSame : Prop :=
  ∀ (s : State) (t : Txn), s.form = .serial → s.activity = .busy t → Request.validates t.req = true →
    t.loc = Locals.initial .serial → HostInput.reset ∉ s.inputs.take (t.req.raw.length + 1) →
    Host.Core.run Sys2Proof.core (t.req.raw.length + 1) s =
      .next { s with activity := .idle, resp := some (answer s.frameLength t.req),
                     inputs := s.inputs.drop (t.req.raw.length + 1) }

/-- A sequence of transactions gives the responses of each one alone, in order, whatever errors are among them (R10,
R39, R222, R227). Two steps a transaction, and a response seen in the step that gives it, are the model's choices
(logs 4 and 5). -/
def Obligations.TransactionsAreIndependent : Prop :=
  ∀ (s : State) (rs : List Request), s.form = .stage → s.activity = .idle → s.inputs = synchronous rs →
    (∀ r ∈ rs, presentable s.frameLength r = true) →
    trace (2 * rs.length) s = rs.map (answer s.frameLength)

/-- An operation reads nothing but its operand fields and the constants: two blocks that agree on those give the
same response (R10, R17). -/
def Obligations.OperationsReadOnlyTheirOperands : Prop :=
  ∀ (i : Instr) (s₁ s₂ : State) (t₁ t₂ : Txn), i.space = .command → s₁.activity = .busy t₁ →
    s₂.activity = .busy t₂ → s₁.frameLength = s₂.frameLength → agreesOn i t₁.req t₂.req →
    ∃ r, exec i s₁ = .next (s₁.completed r) ∧ exec i s₂ = .next (s₂.completed r)

/-- Every response any step gives: bits 7:4 are 0; `OK = 1` goes with `KIND = 0` and `ERR = 0`; `OK = 0` goes with
`KIND != 0`, `ERR != 0`, `BOOL = 0` and no result field (R62); `KIND = 1` never occurs (R193). -/
def Obligations.StatusWordsAreWellFormed : Prop :=
  ∀ (s s' : State) (r : Response), step s = .next s' → s'.resp = some r →
    statusReserved r.status = 0#4 ∧ statusKind r.status ≠ 1#2 ∧
    (statusOk r.status = true → statusKind r.status = 0#2 ∧ statusErr r.status = 0#8) ∧
    (statusOk r.status = false →
      statusKind r.status ≠ 0#2 ∧ statusErr r.status ≠ 0#8 ∧ statusBool r.status = false ∧ r.results = .nothing)

/-- The model's stops: a command asked for with no transaction in progress, a packet tag where no TypeId is awaited
(the model's choice, log 11; `step` asks for neither). -/
def Obligations.RowsStopOutsideTheirContext : Prop :=
  (∀ (i : Instr) (s : State), s.activity = .idle → exec i s = .fault .noTransaction) ∧
  ∀ (s : State) (t : Txn), s.activity = .busy t → t.loc.vst ≠ .serial .type → t.loc.vst ≠ .stage .typeId →
    exec .pktN s = .fault .noTypeIdAwaited ∧ exec .pktS s = .fault .noTypeIdAwaited

/-! ## Quantizer -/

/-- QUANT (R85): the exact product, rounded once to nearest even, saturated; NaN gives 0; never an error. -/
def Obligations.QuantGivesTheRoundedProduct : Prop :=
  decodeCmd 0x00#8 = .ok .quant ∧
  ∀ (s : State) (t : Txn), s.activity = .busy t →
    exec .quant s = .next (s.completed { status := 0x0001#16, results := .quantized (quantizeQ t.req.sIn) })

/-- The bit-level form equals the rule on every pattern (R86). -/
def Obligations.QuantizeHasItsBitLevelForm : Prop :=
  ∀ w : Sample, quantizeBits w = quantize w ∧ quantizeBits w = quantizeQ w

/-- The zero set (R87 item 4): NaN, or magnitude below 1/65534, and no other pattern. -/
def Obligations.QuantizeZeroSet : Prop :=
  ∀ w : Sample, quantize w = 0x0000#16 ↔ class32 w = .nan ∨ (class32 w = .finite ∧ |value32 w| < 1 / 65534)

/-- Range (R87 item 1): magnitude at most 1 gives at most 32767 in magnitude, and -32768 comes only from below
-32767.5/32767 or from -Inf. -/
def Obligations.QuantizeRange : Prop :=
  (∀ w : Sample, inRange w → -32767 ≤ (quantize w).toInt ∧ (quantize w).toInt ≤ 32767) ∧
  ∀ w : Sample, quantize w = 0x8000#16 →
    class32 w = .inf true ∨ (class32 w = .finite ∧ value32 w < -(32767.5 / 32767))

/-- Monotonicity (R87 item 6) and oddness except where the clamp acts (R87 item 5). -/
def Obligations.QuantizeMonotoneAndOdd : Prop :=
  (∀ a b : Sample, class32 a = .finite → class32 b = .finite → value32 a ≤ value32 b →
    (quantize a).toInt ≤ (quantize b).toInt) ∧
  ∀ w : Sample, class32 w ≠ .nan →
    quantize (w ^^^ 0x80000000#32) = -(quantize w) ∨
      (quantize w = 0x7FFF#16 ∧ quantize (w ^^^ 0x80000000#32) = 0x8000#16) ∨
      (quantize w = 0x8000#16 ∧ quantize (w ^^^ 0x80000000#32) = 0x7FFF#16)

/-- DEQUANT (R90): the exact quotient, rounded once to binary32; never an error. -/
def Obligations.DequantGivesTheRoundedQuotient : Prop :=
  decodeCmd 0x01#8 = .ok .dequant ∧
  ∀ (s : State) (t : Txn), s.activity = .busy t →
    exec .dequant s =
      .next (s.completed { status := 0x0001#16, results := .sample (rn32 ((t.req.qIn.toInt : ℚ) / 32767)) })

/-- The closed form equals the rule on every non-zero sample, with the ranges the rule gives for its exponent and its
significand, and never a tie (R91). -/
def Obligations.DequantizeHasItsClosedForm : Prop :=
  ∀ q : Quantized, q ≠ 0#16 →
    let a := q.toInt.natAbs
    let e := dequantizeExponent a
    let r : ℚ := (a : ℚ) * (2 : ℚ) ^ (23 - e) / 32767
    dequantize q = dequantizeClosed q ∧ rn32 ((q.toInt : ℚ) / 32767) = dequantizeClosed q ∧
      ((a = 32767 ∨ a = 32768) ∧ e = 0 ∨ a < 32767 ∧ -15 ≤ e ∧ e ≤ -1) ∧
      2 ^ 23 ≤ rneInt r ∧ rneInt r < 2 ^ 24 ∧ Int.fract r ≠ 1 / 2

/-- The result of `dequantize` is a finite pattern and no finite pattern lies nearer to the quotient (R82, R90). -/
def Obligations.DequantizeIsNearest : Prop :=
  ∀ q : Quantized, class32 (dequantize q) = .finite ∧
    ∀ w : Sample, class32 w = .finite →
      |value32 (dequantize q) - (q.toInt : ℚ) / 32767| ≤ |value32 w - (q.toInt : ℚ) / 32767|

/-- Oddness, strict monotonicity and the left inverse (R92 items 2 to 4). -/
def Obligations.DequantizeOddMonotoneInvertible : Prop :=
  (∀ q : Quantized, q ≠ 0x0000#16 → q ≠ 0x8000#16 → dequantize (-q) = dequantize q ^^^ 0x80000000#32) ∧
  (∀ q q' : Quantized, q.toInt < q'.toInt → value32 (dequantize q) < value32 (dequantize q')) ∧
  ∀ q : Quantized, quantize (dequantize q) = q

/-- The round-trip contract (R93), with the sharper bound the rule derives. -/
def Obligations.RoundTripContract : Prop :=
  ∀ w : Sample, inRange w →
    |value32 (dequantize (quantize w)) - value32 w| ≤ 1 / 32767 ∧
    |value32 (dequantize (quantize w)) - value32 w| < 0.5 / 32767 + (2 : ℚ) ^ (-25 : ℤ)

/-! ## Silence Detector and Frame Codec -/

/-- ISSIL (R100): true exactly when every element is `0x0000`; never an error. -/
def Obligations.IssilAnswersAllZero : Prop :=
  decodeCmd 0x02#8 = .ok .issil ∧
  ∀ (s : State) (t : Txn), s.activity = .busy t →
    ((∀ q ∈ t.req.qfIn, q = 0x0000#16) →
      exec .issil s = .next (s.completed { status := 0x0003#16, results := .nothing })) ∧
    ((∃ q ∈ t.req.qfIn, q ≠ 0x0000#16) →
      exec .issil s = .next (s.completed { status := 0x0001#16, results := .nothing }))

/-- The threshold on the floating-point side (R102): in values, and as the bit patterns the rule lists. -/
def Obligations.SilenceThreshold : Prop :=
  (∀ audio : List Sample, isSilent (audio.map quantize) = true ↔
    ∀ w ∈ audio, class32 w = .nan ∨ (class32 w = .finite ∧ |value32 w| < 1 / 65534)) ∧
  ∀ w : Sample, (class32 w = .finite ∧ |value32 w| < 1 / 65534) ↔
    (w.toNat ≤ 0x37800100 ∨ (0x80000000 ≤ w.toNat ∧ w.toNat ≤ 0xB7800100))

/-- FSER (R110): `PL_OUT[2i]` is the low byte of sample `i`, `PL_OUT[2i+1]` its high byte; never an error. The
`MemWrite`s of ENC at packet offsets `5 + 2i` write the same bytes. -/
def Obligations.FserStoresLowByteFirst : Prop :=
  decodeCmd 0x03#8 = .ok .fser ∧
  ∀ (s : State) (t : Txn), s.activity = .busy t → t.req.qfIn.length = s.frameLength →
    ∃ pl : List Byte, exec .fser s = .next (s.completed { status := 0x0001#16, results := .payload pl }) ∧
      pl.length = 2 * s.frameLength ∧
      (∀ (i : Nat) (q : Quantized), t.req.qfIn[i]? = some q →
        pl[2 * i]? = some (q.extractLsb' 0 8) ∧ pl[2 * i + 1]? = some (q.extractLsb' 8 8)) ∧
      ∀ m : Memory, writeSamples m 5 t.req.qfIn = writeBytes m 5 pl

/-- FDES (R112): sample `i` takes its high byte from the higher offset; never an error. The `MemRead`s of DEC at
packet offsets `5 + 2i` give the same samples. -/
def Obligations.FdesLoadsHighByteFromHigherOffset : Prop :=
  decodeCmd 0x04#8 = .ok .fdes ∧
  ∀ (s : State) (t : Txn), s.activity = .busy t → t.req.plIn.length = 2 * s.frameLength →
    ∃ qf : List Quantized, exec .fdes s = .next (s.completed { status := 0x0001#16, results := .frame qf }) ∧
      qf.length = s.frameLength ∧
      (∀ (i : Nat) (lo hi : Byte), t.req.plIn[2 * i]? = some lo → t.req.plIn[2 * i + 1]? = some hi →
        qf[i]? = some (hi ++ lo)) ∧
      ∀ header rest : List Byte, header.length = 5 →
        readSamples (Memory.ofBytes (header ++ t.req.plIn ++ rest)) 5 s.frameLength = .ok qf

/-- FDES undoes FSER and FSER undoes FDES, as the block runs them (R113). -/
def Obligations.FrameCodecIsABijection : Prop :=
  ∀ (s₁ s₂ : State) (t₁ t₂ : Txn), s₁.activity = .busy t₁ → s₂.activity = .busy t₂ →
    (exec .fser s₁ = .next (s₁.completed { status := 0x0001#16, results := .payload t₂.req.plIn }) →
      exec .fdes s₂ = .next (s₂.completed { status := 0x0001#16, results := .frame t₁.req.qfIn })) ∧
    (t₂.req.plIn.length = 2 * s₂.frameLength →
      exec .fdes s₂ = .next (s₂.completed { status := 0x0001#16, results := .frame t₁.req.qfIn }) →
      exec .fser s₁ = .next (s₁.completed { status := 0x0001#16, results := .payload t₂.req.plIn }))

/-! ## Packet byte space -/

/-- `MemRead` of one and of two bytes of RAW (R35): unsigned, little-endian. -/
def Obligations.MemReadIsLittleEndian : Prop :=
  ∀ (raw : List Byte) (addr : Nat) (lo hi : Byte), raw[addr]? = some lo → raw[addr + 1]? = some hi →
    memRead (Memory.ofBytes raw) addr 1 = .ok lo.toNat ∧
    memRead (Memory.ofBytes raw) addr 2 = .ok (hi ++ lo).toNat

/-- `MemWrite` inside the space (R36): it never faults, the bytes read back, every other byte and the size stay, and
the canonical form is kept. -/
def Obligations.MemWriteStoresItsBytesOnly : Prop :=
  ∀ (m : Memory) (addr n v : Nat), m.wf = true → addr + n ≤ m.size →
    ∃ m', memWrite m addr n v = .ok m' ∧ m'.wf = true ∧ m'.size = m.size ∧
      memRead m' addr n = .ok (v % 256 ^ n) ∧
      ∀ a, (a < addr ∨ addr + n ≤ a) → m'.read a = m.read a

/-! ## Packet Encoder -/

/-- The first failing check decides (R126): audio length, lane ASCII, lane length, extension length, each with its
`STATUS` and no packet. -/
def Obligations.EncReportsTheFirstFailingCheck : Prop :=
  ∀ (s : State) (t : Txn), s.activity = .busy t →
    (t.req.audio.length ≠ s.frameLength →
      exec .enc s = .next (s.completed { status := 0x0208#16, results := .nothing })) ∧
    (t.req.audio.length = s.frameLength → (∃ c ∈ t.req.lane, 127 < c.toNat) →
      exec .enc s = .next (s.completed { status := 0x0408#16, results := .nothing })) ∧
    (t.req.audio.length = s.frameLength → (∀ c ∈ t.req.lane, c.toNat ≤ 127) → 3 < t.req.lane.length →
      exec .enc s = .next (s.completed { status := 0x0508#16, results := .nothing })) ∧
    (t.req.audio.length = s.frameLength → (∀ c ∈ t.req.lane, c.toNat ≤ 127) → t.req.lane.length ≤ 3 →
      255 < t.req.ext.length →
      exec .enc s = .next (s.completed { status := 0x0708#16, results := .nothing }))

/-- ENC of operands that pass the checks writes, byte by byte, the packet
`[TypeId] ++ lane_field ++ [|EXT|] ++ (silent ? [] : ser_frame(qf)) ++ EXT` (R127, R128). -/
def Obligations.EncEmitsThePacket : Prop :=
  decodeCmd 0x05#8 = .ok .enc ∧
  ∀ (s : State) (t : Txn), s.activity = .busy t → encodable s.frameLength t.req →
    let qf := t.req.audio.map quantizeQ
    let silent := decide (∀ q ∈ qf, q = 0x0000#16)
    let pkt := [if silent then 0x11#8 else 0x10#8] ++
      (t.req.lane ++ List.replicate (3 - t.req.lane.length) 0x00#8) ++ [BitVec.ofNat 8 t.req.ext.length] ++
      (if silent then [] else serFrame qf) ++ t.req.ext
    exec .enc s = .next (s.completed { status := 0x0001#16, results := .packet pkt }) ∧
      pkt.length = 5 + (if silent then 0 else 2 * s.frameLength) + t.req.ext.length

/-- A packet ENC returns is well formed (R129), and its tag is SILENT exactly when every sample quantizes to zero
(R132). -/
def Obligations.EncodedPacketsAreWellFormed : Prop :=
  ∀ (s : State) (t : Txn) (pkt : List Byte), s.activity = .busy t →
    exec .enc s = .next (s.completed { status := 0x0001#16, results := .packet pkt }) →
    packetVerdict s.frameLength pkt = .ok .ok ∧
      (pkt[0]? = some 0x11#8 ↔ ∀ w ∈ t.req.audio, quantize w = 0x0000#16) ∧
      (pkt[0]? = some 0x10#8 ↔ ∃ w ∈ t.req.audio, quantize w ≠ 0x0000#16)

/-- Silence collapse (R131, R180): when every quantized sample is zero the packet has `5 + |EXT|` bytes, and DEC of it
gives `FRAME_LENGTH` samples `0x00000000` with the same extension bytes. -/
def Obligations.SilenceCollapse : Prop :=
  ∀ (s₁ s₂ : State) (t₁ t₂ : Txn), s₁.activity = .busy t₁ → s₂.activity = .busy t₂ →
    s₁.frameLength = s₂.frameLength → encodable s₁.frameLength t₁.req →
    (∀ w ∈ t₁.req.audio, quantize w = 0x0000#16) →
    ∃ pkt : List Byte, exec .enc s₁ = .next (s₁.completed { status := 0x0001#16, results := .packet pkt }) ∧
      pkt.length = 5 + t₁.req.ext.length ∧
      (t₂.req.raw = pkt → ∃ lane : List Byte, exec .dec s₂ = .next (s₂.completed
        { status := 0x0001#16,
          results := .decoded (List.replicate s₁.frameLength 0x00000000#32) lane t₁.req.ext }))

/-! ## Packet Validator -/

/-- The tags at the two places where the validator awaits the TypeId (R144, R153): `typ` is set and the machine goes
on; nothing else of the state changes. -/
def Obligations.TagsSetTheType : Prop :=
  ∀ (s : State) (t : Txn), s.activity = .busy t →
    (t.loc.vst = .serial .type →
      exec .pktN s = .next { s with activity := .busy { t with loc :=
        { t.loc with typ := 0#1, vst := .serial .lane0, pos := t.loc.pos + 1 } } } ∧
      exec .pktS s = .next { s with activity := .busy { t with loc :=
        { t.loc with typ := 1#1, vst := .serial .lane0, pos := t.loc.pos + 1 } } }) ∧
    (t.loc.vst = .stage .typeId →
      exec .pktN s = .next { s with activity := .busy { t with loc :=
        { t.loc with typ := 0#1, vst := .stage .hdrLen } } } ∧
      exec .pktS s = .next { s with activity := .busy { t with loc :=
        { t.loc with typ := 1#1, vst := .stage .hdrLen } } })

/-- The stages are visited strictly in order (R141): from a stage that is not final a stage step goes to the next one,
or to `ST_REJECT` with a failing verdict, which `ST_TYPECHK` and `ST_EXTLEN` never do (R142, R146); the final stages
stay; and eight stage steps from `ST_TYPECHK` end in a final stage with its verdict. -/
def Obligations.StagesOnlyAdvance : Prop :=
  (∀ (fl : Nat) (raw : Memory) (l l' : Locals) (st : Stage), l.vst = .stage st → st ≠ .accept → st ≠ .reject →
    stageStep fl raw l = .ok l' →
    ∃ st', l'.vst = .stage st' ∧
      ((st' ≠ .reject ∧ st'.rank = st.rank + 1) ∨
        (st' = .reject ∧ st ≠ .typeChk ∧ st ≠ .extLen ∧ ∃ v, l'.verdict = some v ∧ v ≠ .ok))) ∧
  (∀ (fl : Nat) (raw : Memory) (l l' : Locals), l.vst = .stage .accept ∨ l.vst = .stage .reject →
    stageStep fl raw l = .ok l' → l'.vst = l.vst) ∧
  ∀ (fl : Nat) (raw : List Byte), ∃ l v, runStages fl (Memory.ofBytes raw) 8 (Locals.initial .stage) = .ok l ∧
    l.verdict = some v ∧ ((l.vst = .stage .accept ∧ v = .ok) ∨ (l.vst = .stage .reject ∧ v ≠ .ok))

/-- The stage machine, the byte-serial machine and `validate_core` give one verdict (R155). -/
def Obligations.ValidatorFormsAgree : Prop :=
  ∀ (fl : Nat) (raw : List Byte),
    serialCore fl raw = packetVerdict fl raw ∧ packetVerdict fl raw = .ok (validateCore fl raw)

/-- What the verdict says of a byte sequence (R159, items 1 to 7). -/
def Obligations.VerdictFacts : Prop :=
  ∀ (fl : Nat) (raw : List Byte), 1 ≤ fl →
    (∃ v, packetVerdict fl raw = .ok v) ∧
    (∀ raw' : List Byte, raw'.length = raw.length → raw'[0]? = raw[0]? → raw'[4]? = raw[4]? →
      packetVerdict fl raw' = packetVerdict fl raw) ∧
    (packetVerdict fl raw = .ok .ok ↔
      5 ≤ raw.length ∧ (raw[0]? = some 0x10#8 ∨ raw[0]? = some 0x11#8) ∧
        raw.length = 5 + (if raw[0]? = some 0x10#8 then 2 * fl else 0) + (raw.getD 4 0#8).toNat) ∧
    (packetVerdict fl raw = .ok .ok →
      (∀ n, 1 ≤ n → n ≤ 4 → packetVerdict fl (raw.take n) = .ok .hdrShort) ∧
      (∀ n, 5 ≤ n → n < raw.length → packetVerdict fl (raw.take n) = .ok .audioShort ∨
        packetVerdict fl (raw.take n) = .ok .silentShort) ∧
      (∀ more : List Byte, more ≠ [] → packetVerdict fl (raw ++ more) = .ok .audioLong ∨
        packetVerdict fl (raw ++ more) = .ok .silentLong)) ∧
    (∀ b : Byte, raw ≠ [] → b ≠ 0x10#8 → b ≠ 0x11#8 → packetVerdict fl (b :: raw.tail) = .ok .typeId) ∧
    ((packetVerdict fl raw = .ok .ok → 5 ≤ raw.length ∧ raw.length ≤ 5 + 2 * fl + 255) ∧
      (packetVerdict fl raw = .ok .ok → raw.length = 5 → raw[0]? = some 0x11#8 ∧ raw[4]? = some 0#8) ∧
      (packetVerdict fl raw = .ok .ok → raw[0]? = some 0x10#8 → 5 + 2 * fl ≤ raw.length) ∧
      (∀ x y z : Byte, packetVerdict fl [0x11#8, x, y, z, 0x00#8] = .ok .ok) ∧
      (∃ big : List Byte, packetVerdict fl big = .ok .ok ∧ big[0]? = some 0x10#8 ∧ big[4]? = some 255#8 ∧
        big.length = 5 + 2 * fl + 255) ∧
      (∃ small : List Byte, packetVerdict fl small = .ok .ok ∧ small[0]? = some 0x10#8 ∧
        small.length = 5 + 2 * fl)) ∧
    (packetVerdict fl raw = .ok .ok →
      (raw[0]? = some 0x10#8 → packetVerdict fl (0x11#8 :: raw.tail) = .ok .silentLong) ∧
      (raw[0]? = some 0x11#8 → packetVerdict fl (0x10#8 :: raw.tail) = .ok .audioShort))

/-- VAL (R150): `0x0003` for a well-formed packet, `0x0001` for any other sequence; never an error (R197). -/
def Obligations.ValAnswersWellFormedness : Prop :=
  decodeCmd 0x06#8 = .ok .val ∧
  ∀ (s : State) (t : Txn), s.activity = .busy t →
    (validateCore s.frameLength t.req.raw = .ok →
      exec .val s = .next (s.completed { status := 0x0003#16, results := .nothing })) ∧
    (validateCore s.frameLength t.req.raw ≠ .ok →
      exec .val s = .next (s.completed { status := 0x0001#16, results := .nothing }))

/-- VALS (R151): `0x0003` for a well-formed packet, else the value error of the first failing stage. -/
def Obligations.ValsRaisesTheVerdict : Prop :=
  decodeCmd 0x16#8 = .ok .vals ∧
  ∀ (s : State) (t : Txn), s.activity = .busy t →
    exec .vals s = .next (s.completed { results := .nothing, status :=
      (match validateCore s.frameLength t.req.raw with
      | .ok => 0x0003#16
      | .empty => 0x1108#16
      | .typeId => 0x1208#16
      | .hdrShort => 0x1308#16
      | .audioShort => 0x1408#16
      | .silentShort => 0x1508#16
      | .audioLong => 0x1608#16
      | .silentLong => 0x1708#16) })

/-- Blocks built with another `FRAME_LENGTH` (R224, U27): a NORMAL packet of a smaller constant is too short, of a
larger one too long; a SILENT packet is accepted. -/
def Obligations.OtherFrameLengthsAreIllFormed : Prop :=
  ∀ (fl fl' : Nat) (p : Packet), p.wf fl = true →
    match p with
    | .normal _ _ _ =>
        (fl < fl' → packetVerdict fl' p.encode = .ok .audioShort) ∧
        (fl' < fl → packetVerdict fl' p.encode = .ok .audioLong)
    | .silent _ _ => packetVerdict fl' p.encode = .ok .ok

/-! ## Packet Decoder -/

/-- DEC of a sequence that is not well formed: the coarser error of the verdict, no result field (R172, R177). -/
def Obligations.DecReportsItsError : Prop :=
  ∀ (s : State) (t : Txn), s.activity = .busy t →
    validateCore s.frameLength t.req.raw ≠ .ok →
    exec .dec s = .next (s.completed { results := .nothing, status :=
      (match validateCore s.frameLength t.req.raw with
      | .typeId => 0x2108#16
      | .audioLong => 0x2308#16
      | .silentLong => 0x2308#16
      | _ => 0x2208#16) })

/-- DEC of any well-formed packet (R170, R173 to R176): each sample dequantized, or `FRAME_LENGTH` zeros; the lane
field less its trailing `0x00`; the extension bytes verbatim. -/
def Obligations.DecReconstructsThePacket : Prop :=
  decodeCmd 0x07#8 = .ok .dec ∧
  ∀ (s : State) (t : Txn) (p : Packet), s.activity = .busy t → p.wf s.frameLength = true →
    t.req.raw = p.encode →
    exec .dec s = .next (s.completed { status := 0x0001#16, results :=
      match p with
      | .normal lane qs ext =>
          .decoded (qs.map fun q => rn32 ((q.toInt : ℚ) / 32767)) (stripPadding lane) ext
      | .silent lane ext => .decoded (List.replicate s.frameLength 0x00000000#32) (stripPadding lane) ext })

/-- DEC succeeds exactly when VAL on the same RAW is true (R178). -/
def Obligations.DecSucceedsIffValidates : Prop :=
  ∀ (s : State) (t : Txn), s.activity = .busy t →
    ∃ r₁ r₂ : Response, exec .val s = .next (s.completed r₁) ∧ exec .dec s = .next (s.completed r₂) ∧
      (statusOk r₂.status = true ↔ statusBool r₁.status = true)

/-- The round trip (R179): in-range samples come back within 1/32767, the name and the extension exactly. -/
def Obligations.EncodeDecodeRoundTrip : Prop :=
  ∀ (s₁ s₂ : State) (t₁ t₂ : Txn), s₁.activity = .busy t₁ → s₂.activity = .busy t₂ →
    s₁.frameLength = s₂.frameLength → encodable s₁.frameLength t₁.req → (∀ w ∈ t₁.req.audio, inRange w) →
    t₁.req.lane.getLast? ≠ some 0x00#8 →
    ∃ pkt : List Byte, exec .enc s₁ = .next (s₁.completed { status := 0x0001#16, results := .packet pkt }) ∧
      (t₂.req.raw = pkt → ∃ frame : List Sample,
        exec .dec s₂ = .next (s₂.completed
          { status := 0x0001#16, results := .decoded frame t₁.req.lane t₁.req.ext }) ∧
        frame.length = s₁.frameLength ∧
        ∀ (i : Nat) (w w' : Sample), t₁.req.audio[i]? = some w → frame[i]? = some w' →
          class32 w' = .finite ∧ |value32 w' - value32 w| ≤ 1 / 32767)

/-- Names that end in the code `0x00` come back without their trailing `0x00` codes, other names as they were (R134):
DEC after ENC returns the name with its padding stripped. -/
def Obligations.NamesComeBackStripped : Prop :=
  ∀ (s₁ s₂ : State) (t₁ t₂ : Txn), s₁.activity = .busy t₁ → s₂.activity = .busy t₂ →
    s₁.frameLength = s₂.frameLength → encodable s₁.frameLength t₁.req →
    exec .enc s₁ = .next (s₁.completed { status := 0x0001#16, results := .packet t₂.req.raw }) →
    ∃ frame : List Sample, exec .dec s₂ = .next (s₂.completed
      { status := 0x0001#16, results := .decoded frame (stripPadding t₁.req.lane) t₁.req.ext })
end

