-- ==== Sys2Proof/Laws/State.lean ====
section
/-! SUPPORT. One lemma per field of State for each of its updates, so that no proof unfolds an update; the same for
the local variables. -/

namespace Sys2Proof.Laws

open Sys2Proof.Machine

@[simp] theorem respond_frameLength (st : BitVec 16) (res : Results) (s : State) : (respond st res s).frameLength = s.frameLength := rfl
@[simp] theorem respond_form (st : BitVec 16) (res : Results) (s : State) : (respond st res s).form = s.form := rfl
@[simp] theorem respond_activity (st : BitVec 16) (res : Results) (s : State) : (respond st res s).activity = .idle := rfl
@[simp] theorem respond_resp (st : BitVec 16) (res : Results) (s : State) : (respond st res s).resp = some { status := st, results := res } := rfl
@[simp] theorem respond_inputs (st : BitVec 16) (res : Results) (s : State) : (respond st res s).inputs = s.inputs := rfl

@[simp] theorem raise_frameLength (e : ErrCode) (s : State) : (raise e s).frameLength = s.frameLength := rfl
@[simp] theorem raise_form (e : ErrCode) (s : State) : (raise e s).form = s.form := rfl
@[simp] theorem raise_activity (e : ErrCode) (s : State) : (raise e s).activity = .idle := rfl
@[simp] theorem raise_resp (e : ErrCode) (s : State) : (raise e s).resp = some { status := statusError e, results := .nothing } := rfl
@[simp] theorem raise_inputs (e : ErrCode) (s : State) : (raise e s).inputs = s.inputs := rfl

@[simp] theorem applyReset_frameLength (s : State) : (applyReset s).frameLength = s.frameLength := rfl
@[simp] theorem applyReset_form (s : State) : (applyReset s).form = s.form := rfl
@[simp] theorem applyReset_activity (s : State) : (applyReset s).activity = .idle := rfl
@[simp] theorem applyReset_resp (s : State) : (applyReset s).resp = none := rfl
@[simp] theorem applyReset_inputs (s : State) : (applyReset s).inputs = s.inputs := rfl

@[simp] theorem accept_frameLength (r : Request) (s : State) : (accept r s).frameLength = s.frameLength := rfl
@[simp] theorem accept_form (r : Request) (s : State) : (accept r s).form = s.form := rfl
@[simp] theorem accept_activity (r : Request) (s : State) : (accept r s).activity = .busy { req := r, loc := Locals.initial s.form } := rfl
@[simp] theorem accept_resp (r : Request) (s : State) : (accept r s).resp = s.resp := rfl
@[simp] theorem accept_inputs (r : Request) (s : State) : (accept r s).inputs = s.inputs := rfl

@[simp] theorem setLocals_frameLength (t : Txn) (l : Locals) (s : State) : (setLocals t l s).frameLength = s.frameLength := rfl
@[simp] theorem setLocals_form (t : Txn) (l : Locals) (s : State) : (setLocals t l s).form = s.form := rfl
@[simp] theorem setLocals_activity (t : Txn) (l : Locals) (s : State) : (setLocals t l s).activity = .busy { t with loc := l } := rfl
@[simp] theorem setLocals_resp (t : Txn) (l : Locals) (s : State) : (setLocals t l s).resp = s.resp := rfl
@[simp] theorem setLocals_inputs (t : Txn) (l : Locals) (s : State) : (setLocals t l s).inputs = s.inputs := rfl

@[simp] theorem takeInput_frameLength (s : State) : (takeInput s).frameLength = s.frameLength := rfl
@[simp] theorem takeInput_form (s : State) : (takeInput s).form = s.form := rfl
@[simp] theorem takeInput_activity (s : State) : (takeInput s).activity = s.activity := rfl
@[simp] theorem takeInput_resp (s : State) : (takeInput s).resp = none := rfl
@[simp] theorem takeInput_inputs (s : State) : (takeInput s).inputs = s.inputs.tail := rfl

@[simp] theorem completed_frameLength (s : State) (r : Response) : (s.completed r).frameLength = s.frameLength := rfl
@[simp] theorem completed_form (s : State) (r : Response) : (s.completed r).form = s.form := rfl
@[simp] theorem completed_activity (s : State) (r : Response) : (s.completed r).activity = .idle := rfl
@[simp] theorem completed_resp (s : State) (r : Response) : (s.completed r).resp = some r := rfl
@[simp] theorem completed_inputs (s : State) (r : Response) : (s.completed r).inputs = s.inputs := rfl

@[simp] theorem afterReset_frameLength (fl : Nat) (form : ValidatorForm) : (State.afterReset fl form).frameLength = fl := rfl
@[simp] theorem afterReset_form (fl : Nat) (form : ValidatorForm) : (State.afterReset fl form).form = form := rfl
@[simp] theorem afterReset_activity (fl : Nat) (form : ValidatorForm) : (State.afterReset fl form).activity = .idle := rfl
@[simp] theorem afterReset_resp (fl : Nat) (form : ValidatorForm) : (State.afterReset fl form).resp = none := rfl
@[simp] theorem afterReset_inputs (fl : Nat) (form : ValidatorForm) : (State.afterReset fl form).inputs = [] := rfl

@[simp] theorem rejectWith_vst (v : Verdict) (l : Locals) : (rejectWith v l).vst = .stage .reject := rfl
@[simp] theorem rejectWith_pos (v : Verdict) (l : Locals) : (rejectWith v l).pos = l.pos := rfl
@[simp] theorem rejectWith_typ (v : Verdict) (l : Locals) : (rejectWith v l).typ = l.typ := rfl
@[simp] theorem rejectWith_extLen (v : Verdict) (l : Locals) : (rejectWith v l).extLen = l.extLen := rfl
@[simp] theorem rejectWith_expectedLen (v : Verdict) (l : Locals) : (rejectWith v l).expectedLen = l.expectedLen := rfl
@[simp] theorem rejectWith_rem (v : Verdict) (l : Locals) : (rejectWith v l).rem = l.rem := rfl
@[simp] theorem rejectWith_verdict (v : Verdict) (l : Locals) : (rejectWith v l).verdict = some v := rfl
@[simp] theorem rejectWith_qf (v : Verdict) (l : Locals) : (rejectWith v l).qf = l.qf := rfl
@[simp] theorem rejectWith_silent (v : Verdict) (l : Locals) : (rejectWith v l).silent = l.silent := rfl
@[simp] theorem rejectWith_pkt (v : Verdict) (l : Locals) : (rejectWith v l).pkt = l.pkt := rfl

@[simp] theorem encQuantize_vst (r : Request) (l : Locals) : (encQuantize r l).vst = l.vst := rfl
@[simp] theorem encQuantize_pos (r : Request) (l : Locals) : (encQuantize r l).pos = l.pos := rfl
@[simp] theorem encQuantize_typ (r : Request) (l : Locals) : (encQuantize r l).typ = l.typ := rfl
@[simp] theorem encQuantize_extLen (r : Request) (l : Locals) : (encQuantize r l).extLen = l.extLen := rfl
@[simp] theorem encQuantize_expectedLen (r : Request) (l : Locals) : (encQuantize r l).expectedLen = l.expectedLen := rfl
@[simp] theorem encQuantize_rem (r : Request) (l : Locals) : (encQuantize r l).rem = l.rem := rfl
@[simp] theorem encQuantize_verdict (r : Request) (l : Locals) : (encQuantize r l).verdict = l.verdict := rfl
@[simp] theorem encQuantize_qf (r : Request) (l : Locals) : (encQuantize r l).qf = r.audio.map quantize := rfl
@[simp] theorem encQuantize_silent (r : Request) (l : Locals) : (encQuantize r l).silent = l.silent := rfl
@[simp] theorem encQuantize_pkt (r : Request) (l : Locals) : (encQuantize r l).pkt = l.pkt := rfl

@[simp] theorem encDetect_vst (l : Locals) : (encDetect l).vst = l.vst := rfl
@[simp] theorem encDetect_pos (l : Locals) : (encDetect l).pos = l.pos := rfl
@[simp] theorem encDetect_typ (l : Locals) : (encDetect l).typ = l.typ := rfl
@[simp] theorem encDetect_extLen (l : Locals) : (encDetect l).extLen = l.extLen := rfl
@[simp] theorem encDetect_expectedLen (l : Locals) : (encDetect l).expectedLen = l.expectedLen := rfl
@[simp] theorem encDetect_rem (l : Locals) : (encDetect l).rem = l.rem := rfl
@[simp] theorem encDetect_verdict (l : Locals) : (encDetect l).verdict = l.verdict := rfl
@[simp] theorem encDetect_qf (l : Locals) : (encDetect l).qf = l.qf := rfl
@[simp] theorem encDetect_silent (l : Locals) : (encDetect l).silent = isSilent l.qf := rfl
@[simp] theorem encDetect_pkt (l : Locals) : (encDetect l).pkt = l.pkt := rfl

@[simp] theorem initial_pos (form : ValidatorForm) : (Locals.initial form).pos = 0 := rfl
@[simp] theorem initial_typ (form : ValidatorForm) : (Locals.initial form).typ = 0#1 := rfl
@[simp] theorem initial_extLen (form : ValidatorForm) : (Locals.initial form).extLen = 0#8 := rfl
@[simp] theorem initial_expectedLen (form : ValidatorForm) : (Locals.initial form).expectedLen = 0 := rfl
@[simp] theorem initial_rem (form : ValidatorForm) : (Locals.initial form).rem = 0 := rfl
@[simp] theorem initial_verdict (form : ValidatorForm) : (Locals.initial form).verdict = none := rfl
@[simp] theorem initial_qf (form : ValidatorForm) : (Locals.initial form).qf = [] := rfl
@[simp] theorem initial_silent (form : ValidatorForm) : (Locals.initial form).silent = false := rfl
@[simp] theorem initial_pkt (form : ValidatorForm) : (Locals.initial form).pkt = Memory.none := rfl
@[simp] theorem initial_vst_stage : (Locals.initial .stage).vst = .stage .typeChk := rfl
@[simp] theorem initial_vst_serial : (Locals.initial .serial).vst = .serial .type := rfl

/-- Responding in the words of a response record. -/
theorem respond_eq_completed (st : BitVec 16) (res : Results) (s : State) :
    respond st res s = s.completed { status := st, results := res } := rfl

/-- Raising in the words of a response record. -/
theorem raise_eq_completed (e : ErrCode) (s : State) : raise e s = s.completed (errorResponse e) := rfl

end Sys2Proof.Laws
end

