-- ==== Sys2Proof/Laws/Memory.lean ====
section
/-! SUPPORT. The packet byte space: reading, writing, the canonical form, and byte sequences. -/

namespace Sys2Proof.Laws

open Sys2Proof.Machine

/-! ## Lists of cells -/

theorem cellsOk_mono {size lo lo' : Nat} {cs : List Host.Cell} (h : cellsOk size lo cs = true) (hl : lo' ≤ lo) :
    cellsOk size lo' cs = true := by
  cases cs with
  | nil => rfl
  | cons c cs =>
    simp only [cellsOk, Bool.and_eq_true, decide_eq_true_eq] at h ⊢
    exact ⟨⟨⟨by omega, h.1.1.2⟩, h.1.2⟩, h.2⟩

/-- Below its first offset a list of cells holds the unlisted byte. -/
theorem lookupCell_below {size lo a : Nat} {cs : List Host.Cell} (h : cellsOk size lo cs = true) (ha : a < lo) :
    lookupCell cs a = unlistedByte := by
  induction cs generalizing lo with
  | nil => rfl
  | cons c cs ih =>
    simp only [cellsOk, Bool.and_eq_true, decide_eq_true_eq] at h
    have hne : c.1 ≠ a := by omega
    simp only [lookupCell, hne, if_false]
    exact ih h.2 (by omega)

theorem lookupCell_setCell {size lo : Nat} {cs : List Host.Cell} (h : cellsOk size lo cs = true) (a : Nat) (b : Byte)
    (k : Nat) : lookupCell (setCell cs a b) k = if k = a then b else lookupCell cs k := by
  induction cs generalizing lo with
  | nil =>
    simp only [setCell]
    split
    · subst_vars; simp [lookupCell]
    · simp [lookupCell, eq_comm]
  | cons c cs ih =>
    obtain ⟨k₀, v⟩ := c
    simp only [cellsOk, Bool.and_eq_true, decide_eq_true_eq] at h
    obtain ⟨⟨⟨_, _⟩, _⟩, hcs⟩ := h
    have hbelow : ∀ a, a < k₀ + 1 → lookupCell cs a = unlistedByte := fun a ha => lookupCell_below hcs ha
    by_cases h1 : a < k₀
    · by_cases hb : b = unlistedByte
      · simp only [setCell, h1, hb, if_true]
        by_cases hk : k = a
        · subst hk
          simp [lookupCell, hbelow k (by omega), show k₀ ≠ k by omega]
        · simp [hk]
      · simp only [setCell, h1, hb, if_true, if_false]
        by_cases hk : k = a
        · subst hk; simp [lookupCell]
        · simp [lookupCell, hk, Ne.symm hk]
    · by_cases h2 : a = k₀
      · subst h2
        by_cases hb : b = unlistedByte
        · simp only [setCell, hb, if_true, lt_irrefl, if_false]
          by_cases hk : k = a
          · subst hk; simp [hbelow k (by omega)]
          · simp [lookupCell, hk, Ne.symm hk]
        · simp only [setCell, hb, if_true, lt_irrefl, if_false]
          by_cases hk : k = a
          · subst hk; simp [lookupCell]
          · simp [lookupCell, hk, Ne.symm hk]
      · simp only [setCell, h1, h2, if_false, lookupCell, ih hcs]
        by_cases hk : k₀ = k
        · subst hk; simp [Ne.symm h2]
        · simp [hk]

theorem cellsOk_setCell {size lo : Nat} {cs : List Host.Cell} (h : cellsOk size lo cs = true) {a : Nat} (b : Byte)
    (hlo : lo ≤ a) (ha : a < size) : cellsOk size lo (setCell cs a b) = true := by
  induction cs generalizing lo with
  | nil =>
    simp only [setCell]
    split <;> simp_all [cellsOk]
  | cons c cs ih =>
    obtain ⟨k₀, v⟩ := c
    have h0 := h
    simp only [cellsOk, Bool.and_eq_true, decide_eq_true_eq] at h
    obtain ⟨⟨⟨h1, h2⟩, h3⟩, hcs⟩ := h
    simp only [setCell]
    split
    · split
      · exact h0
      · simp only [cellsOk, Bool.and_eq_true, decide_eq_true_eq]
        exact ⟨⟨⟨hlo, ha⟩, ‹_›⟩, ⟨⟨⟨by omega, h2⟩, h3⟩, hcs⟩⟩
    · split
      · split
        · exact cellsOk_mono hcs (by omega)
        · simp only [cellsOk, Bool.and_eq_true, decide_eq_true_eq]
          subst_vars
          exact ⟨⟨⟨h1, h2⟩, ‹_›⟩, hcs⟩
      · simp only [cellsOk, Bool.and_eq_true, decide_eq_true_eq]
        exact ⟨⟨⟨h1, h2⟩, h3⟩, ih hcs (by omega)⟩

theorem lookupCell_cellsFrom (bs : List Byte) (a k : Nat) :
    lookupCell (cellsFrom a bs) k = if a ≤ k then bs.getD (k - a) unlistedByte else unlistedByte := by
  induction bs generalizing a with
  | nil => simp [cellsFrom, lookupCell]
  | cons b bs ih =>
    simp only [cellsFrom]
    rcases Nat.lt_trichotomy k a with hk | hk | hk
    · split <;> simp [lookupCell, ih, show ¬ a ≤ k by omega, show ¬ a + 1 ≤ k by omega, show a ≠ k by omega]
    · subst hk
      split <;> simp_all [lookupCell]
    · obtain ⟨d, rfl⟩ : ∃ d, k = a + 1 + d := ⟨k - a - 1, by omega⟩
      have e1 : a + 1 + d - a = d + 1 := by omega
      have e2 : a + 1 + d - (a + 1) = d := by omega
      split <;> simp [lookupCell, ih, e1, e2, show a ≤ a + 1 + d by omega, show a ≠ a + 1 + d by omega]

theorem cellsOk_cellsFrom (bs : List Byte) (lo a size : Nat) (hlo : lo ≤ a) (h : a + bs.length ≤ size) :
    cellsOk size lo (cellsFrom a bs) = true := by
  induction bs generalizing a lo with
  | nil => rfl
  | cons b bs ih =>
    simp only [List.length_cons] at h
    simp only [cellsFrom]
    split
    · exact ih _ _ (by omega) (by omega)
    · simp only [cellsOk, Bool.and_eq_true, decide_eq_true_eq]
      exact ⟨⟨⟨hlo, by omega⟩, ‹_›⟩, ih _ _ (le_refl _) (by omega)⟩

/-- In the canonical form, cells that read alike everywhere are equal. -/
theorem cells_ext {size lo : Nat} {cs cs' : List Host.Cell} (h : cellsOk size lo cs = true)
    (h' : cellsOk size lo cs' = true) (heq : ∀ a, lookupCell cs a = lookupCell cs' a) : cs = cs' := by
  induction cs generalizing lo cs' with
  | nil =>
    cases cs' with
    | nil => rfl
    | cons c cs' =>
      simp only [cellsOk, Bool.and_eq_true, decide_eq_true_eq] at h'
      have := heq c.1
      simp only [lookupCell, if_true] at this
      exact absurd this.symm h'.1.2
  | cons c cs ih =>
    obtain ⟨k, v⟩ := c
    have h0 := h
    simp only [cellsOk, Bool.and_eq_true, decide_eq_true_eq] at h
    cases cs' with
    | nil =>
      have := heq k
      simp only [lookupCell, if_true] at this
      exact absurd this h.1.2
    | cons c' cs' =>
      obtain ⟨k', v'⟩ := c'
      have h0' := h'
      simp only [cellsOk, Bool.and_eq_true, decide_eq_true_eq] at h'
      have hk : k = k' := by
        rcases Nat.lt_trichotomy k k' with hlt | he | hlt
        · have hbelow : lookupCell ((k', v') :: cs') k = unlistedByte :=
            lookupCell_below (lo := k') (size := size) (by
              simp only [cellsOk, Bool.and_eq_true, decide_eq_true_eq]
              exact ⟨⟨⟨le_refl _, h'.1.1.2⟩, h'.1.2⟩, h'.2⟩) hlt
          have hv := (heq k).trans hbelow
          simp only [lookupCell, if_true] at hv
          exact absurd hv h.1.2
        · exact he
        · have hbelow : lookupCell ((k, v) :: cs) k' = unlistedByte :=
            lookupCell_below (lo := k) (size := size) (by
              simp only [cellsOk, Bool.and_eq_true, decide_eq_true_eq]
              exact ⟨⟨⟨le_refl _, h.1.1.2⟩, h.1.2⟩, h.2⟩) hlt
          have hv := (heq k').symm.trans hbelow
          simp only [lookupCell, if_true] at hv
          exact absurd hv h'.1.2
      subst hk
      have hv : v = v' := by simpa [lookupCell] using heq k
      subst hv
      rw [ih h.2 h'.2 fun a => by
        by_cases ha : k = a
        · subst ha
          rw [lookupCell_below h.2 (by omega), lookupCell_below h'.2 (by omega)]
        · simpa [lookupCell, ha] using heq a]

/-! ## Spaces -/

@[simp] theorem none_wf : Memory.none.wf = true := rfl
@[simp] theorem blank_wf (n : Nat) : (Memory.blank n).wf = true := rfl
@[simp] theorem blank_size (n : Nat) : (Memory.blank n).size = n := rfl
@[simp] theorem ofBytes_size (bs : List Byte) : (Memory.ofBytes bs).size = bs.length := rfl
@[simp] theorem toBytes_length (m : Memory) : m.toBytes.length = m.size := by simp [Memory.toBytes]

@[simp] theorem ofBytes_wf (bs : List Byte) : (Memory.ofBytes bs).wf = true :=
  cellsOk_cellsFrom bs 0 0 bs.length (le_refl _) (by omega)

/-- Reading a byte sequence is reading its element; an offset past its end does not exist. -/
theorem ofBytes_read (bs : List Byte) (a : Nat) :
    (Memory.ofBytes bs).read a = match bs[a]? with
      | some b => .ok b
      | none => .error .outsidePacket := by
  by_cases h : a < bs.length
  · simp [Memory.read, Memory.ofBytes, lookupCell_cellsFrom, h, List.getD_eq_getElem?_getD]
  · simp [Memory.read, Memory.ofBytes, h]

theorem ofBytes_read_of_getElem? {bs : List Byte} {a : Nat} {b : Byte} (h : bs[a]? = some b) :
    (Memory.ofBytes bs).read a = .ok b := by simp [ofBytes_read, h]

/-- All that a write can do: inside the space it sets one byte and keeps the size and the canonical form. -/
theorem write_spec {m : Memory} (hm : m.wf = true) {a : Nat} (b : Byte) (ha : a < m.size) :
    ∃ m', m.write a b = .ok m' ∧ m'.wf = true ∧ m'.size = m.size ∧
      ∀ k, lookupCell m'.cells k = if k = a then b else lookupCell m.cells k :=
  ⟨{ m with cells := setCell m.cells a b }, by simp [Memory.write, ha], cellsOk_setCell hm b (Nat.zero_le _) ha, rfl,
    lookupCell_setCell hm a b⟩

/-- Every write keeps the canonical form. -/
theorem write_keeps_wf {m m' : Memory} {a : Nat} {b : Byte} (hm : m.wf = true) (h : m.write a b = .ok m') :
    m'.wf = true := by
  unfold Memory.write at h
  split at h
  · obtain rfl := Except.ok.inj h
    exact cellsOk_setCell hm b (Nat.zero_le _) ‹_›
  · cases h

/-- `MemWrite` keeps the canonical form. -/
theorem memWrite_keeps_wf {m m' : Memory} {a n v : Nat} (hm : m.wf = true) (h : memWrite m a n v = .ok m') :
    m'.wf = true := by
  induction n generalizing m a v with
  | zero => cases h; exact hm
  | succ n ih =>
    simp only [memWrite, bind, Except.bind] at h
    split at h
    · cases h
    · exact ih (write_keeps_wf hm ‹_›) h

/-- Equal contents are equal spaces, in the canonical form. -/
theorem memory_ext {m m' : Memory} (hm : m.wf = true) (hm' : m'.wf = true) (hs : m.size = m'.size)
    (h : ∀ a, lookupCell m.cells a = lookupCell m'.cells a) : m = m' := by
  obtain ⟨size, cells⟩ := m
  obtain ⟨size', cells'⟩ := m'
  obtain rfl : size = size' := hs
  obtain rfl : cells = cells' := cells_ext hm hm' h
  rfl

/-- The bytes of the space of a byte sequence are the sequence. -/
@[simp] theorem toBytes_ofBytes (bs : List Byte) : (Memory.ofBytes bs).toBytes = bs := by
  apply List.ext_getElem
  · simp
  · intro i _ h2
    simp [Memory.toBytes, Memory.ofBytes, lookupCell_cellsFrom, List.getD_eq_getElem?_getD, h2]

/-- The space of the bytes of a space in the canonical form is the space. -/
theorem ofBytes_toBytes {m : Memory} (hm : m.wf = true) (hout : ∀ a, m.size ≤ a → lookupCell m.cells a = unlistedByte) :
    Memory.ofBytes m.toBytes = m := by
  refine memory_ext (ofBytes_wf _) hm (by simp) fun a => ?_
  by_cases ha : a < m.size
  · simp [Memory.ofBytes, lookupCell_cellsFrom, Memory.toBytes, List.getD_eq_getElem?_getD, ha]
  · simp [Memory.ofBytes, lookupCell_cellsFrom, Memory.toBytes, List.getD_eq_getElem?_getD, ha, hout a (by omega)]

/-! ## Accesses of several bytes -/

/-- All that writing bytes one after the other can do inside the space. -/
theorem writeBytes_spec {m : Memory} (hm : m.wf = true) (bs : List Byte) (a : Nat) (h : a + bs.length ≤ m.size) :
    ∃ m', writeBytes m a bs = .ok m' ∧ m'.wf = true ∧ m'.size = m.size ∧
      ∀ k, lookupCell m'.cells k =
        if a ≤ k ∧ k < a + bs.length then bs.getD (k - a) unlistedByte else lookupCell m.cells k := by
  induction bs generalizing m a with
  | nil => exact ⟨m, rfl, hm, rfl, fun k => by simp [show ¬ (a ≤ k ∧ k < a) by omega]⟩
  | cons b bs ih =>
    simp only [List.length_cons] at h
    obtain ⟨m₁, hw, hwf, hs, hl⟩ := write_spec hm b (a := a) (by omega)
    obtain ⟨m₂, hw₂, hwf₂, hs₂, hl₂⟩ := ih hwf (a + 1) (by omega)
    refine ⟨m₂, ?_, hwf₂, hs₂.trans hs, fun k => ?_⟩
    · simp only [writeBytes, memWrite, BitVec.ofNat_toNat, BitVec.setWidth_eq, hw, bind, Except.bind, hw₂]
    · rw [hl₂, hl]
      rcases Nat.lt_trichotomy k a with hk | hk | hk
      · simp [show ¬ a + 1 ≤ k by omega, show ¬ a ≤ k by omega, show k ≠ a by omega]
      · subst hk; simp
      · obtain ⟨d, rfl⟩ : ∃ d, k = a + 1 + d := ⟨k - a - 1, by omega⟩
        have e1 : a + 1 + d - (a + 1) = d := by omega
        have e2 : a + 1 + d - a = d + 1 := by omega
        by_cases hd : d < bs.length
        · simp [e1, e2, hd, show a ≤ a + 1 + d by omega, show a + 1 + d < a + (bs.length + 1) by omega]
        · simp [hd, show ¬ a + 1 + d < a + (bs.length + 1) by omega, show a + 1 + d ≠ a by omega]

/-- Bytes written one after the other, in two portions. -/
theorem writeBytes_append (m : Memory) (a : Nat) (xs ys : List Byte) :
    writeBytes m a (xs ++ ys) = (writeBytes m a xs).bind fun m' => writeBytes m' (a + xs.length) ys := by
  induction xs generalizing m a with
  | nil => rfl
  | cons x xs ih =>
    simp only [List.cons_append, writeBytes, bind, Except.bind, List.length_cons]
    split
    · rfl
    · rw [ih, show a + 1 + xs.length = a + (xs.length + 1) by omega]
      rfl

/-- The sample's two bytes as `MemWrite(addr, 2, q)` stores them. -/
theorem memWrite_two (m : Memory) (a : Nat) (q : Quantized) :
    memWrite m a 2 q.toNat = writeBytes m a [loByte q, hiByte q] := by
  have h1 : BitVec.ofNat 8 q.toNat = loByte q := by
    apply BitVec.eq_of_toNat_eq; simp [loByte]
  have h2 : BitVec.ofNat 8 (q.toNat / 256) = hiByte q := by
    apply BitVec.eq_of_toNat_eq; simp [hiByte, Nat.shiftRight_eq_div_pow]
  simp only [memWrite, writeBytes, h1, h2, bind, Except.bind, BitVec.ofNat_toNat, BitVec.setWidth_eq]
  split
  · rfl
  · split <;> rfl

/-- One byte, as `MemWrite(addr, 1, b)` stores it. -/
theorem memWrite_one (m : Memory) (a : Nat) (b : Byte) : memWrite m a 1 b.toNat = writeBytes m a [b] := by
  simp only [memWrite, writeBytes, bind, Except.bind]
  split <;> rfl

/-- The samples of a frame are stored as its serialization. -/
theorem writeSamples_eq (m : Memory) (a : Nat) (qs : List Quantized) :
    writeSamples m a qs = writeBytes m a (serFrame qs) := by
  induction qs generalizing m a with
  | nil => rfl
  | cons q qs ih =>
    rw [serFrame, show loByte q :: hiByte q :: serFrame qs = [loByte q, hiByte q] ++ serFrame qs from rfl,
      writeBytes_append, ← memWrite_two]
    simp only [writeSamples, bind, ih, List.length_cons, List.length_nil]

/-- Writing a whole sequence over a blank space of its length gives the space of that sequence. -/
theorem writeBytes_blank (bs : List Byte) : writeBytes (Memory.blank bs.length) 0 bs = .ok (Memory.ofBytes bs) := by
  obtain ⟨m', hw, hwf, hs, hl⟩ := writeBytes_spec (blank_wf bs.length) bs 0 (by simp)
  rw [hw, memory_ext hwf (ofBytes_wf bs) hs fun a => ?_]
  rw [hl, Memory.ofBytes, lookupCell_cellsFrom]
  by_cases h : a < bs.length
  · simp [h]
  · simp [h, Memory.blank, lookupCell]

/-- Reading consecutive bytes of a byte sequence, inside it. -/
theorem readBytes_ofBytes (bs : List Byte) (a n : Nat) (h : a + n ≤ bs.length) :
    readBytes (Memory.ofBytes bs) a n = .ok ((bs.drop a).take n) := by
  induction n generalizing a with
  | zero => simp [readBytes]
  | succ n ih =>
    have ha : a < bs.length := by omega
    simp only [readBytes, bind, Except.bind, pure, Except.pure,
      ofBytes_read_of_getElem? (List.getElem?_eq_getElem ha), ih (a + 1) (by omega)]
    rw [List.drop_eq_getElem_cons ha, List.take_succ_cons]

/-- `MemRead(addr, 1)` of a byte sequence. -/
theorem memRead_one_ofBytes {bs : List Byte} {a : Nat} {b : Byte} (h : bs[a]? = some b) :
    memRead (Memory.ofBytes bs) a 1 = .ok b.toNat := by
  simp [memRead, bind, Except.bind, pure, Except.pure, ofBytes_read_of_getElem? h]

/-- Reading the samples of a byte sequence, inside it, is deserializing those bytes. -/
theorem readSamples_ofBytes (bs : List Byte) (a n : Nat) (h : a + 2 * n ≤ bs.length) :
    readSamples (Memory.ofBytes bs) a n = .ok (desFrame ((bs.drop a).take (2 * n))) := by
  induction n generalizing a with
  | zero => simp [readSamples, desFrame]
  | succ n ih =>
    have h0 : a < bs.length := by omega
    have h1 : a + 1 < bs.length := by omega
    have hq : ∀ lo hi : Byte, BitVec.ofNat 16 (lo.toNat + 256 * (hi.toNat + 256 * 0)) = ofLoHi lo hi := by
      intro lo hi
      apply BitVec.eq_of_toNat_eq
      simp only [ofLoHi, BitVec.toNat_append, BitVec.toNat_ofNat]
      rw [← Nat.shiftLeft_add_eq_or_of_lt lo.isLt, Nat.shiftLeft_eq]
      omega
    simp only [readSamples, memRead, bind, Except.bind, pure, Except.pure,
      ofBytes_read_of_getElem? (List.getElem?_eq_getElem h0), ofBytes_read_of_getElem? (List.getElem?_eq_getElem h1),
      hq, ih (a + 2) (by omega)]
    rw [show 2 * (n + 1) = 2 * n + 1 + 1 by omega, List.drop_eq_getElem_cons h0, List.take_succ_cons,
      List.drop_eq_getElem_cons h1, List.take_succ_cons, desFrame]

end Sys2Proof.Laws
end

