-- ==== Sys2Proof/Laws/Ops.lean ====
section
/-! SUPPORT. Once for each shared operation: what it can do. -/

namespace Sys2Proof.Laws

open Sys2Proof.Machine

/-! ## Outcomes -/

@[simp] theorem toOutcome_ok (s : State) : toOutcome (.ok s) = .next s := rfl
@[simp] theorem toOutcome_error (f : Fault) : toOutcome (.error f) = .fault f := rfl

/-- A checked computation answers a next state exactly when it ends well. -/
theorem toOutcome_next {x : Except Fault State} {s' : State} : toOutcome x = .next s' ↔ x = .ok s' := by
  cases x <;> simp [toOutcome]

theorem withTxn_idle {s : State} (h : s.activity = .idle) (body : Txn → Except Fault State) :
    withTxn s body = .fault .noTransaction := by simp [withTxn, h]

theorem withTxn_busy {s : State} {t : Txn} (h : s.activity = .busy t) (body : Txn → Except Fault State) :
    withTxn s body = toOutcome (body t) := by simp [withTxn, h]

/-- An operation that answers a next state ran its body on the transaction in progress. -/
theorem withTxn_next {s s' : State} {body : Txn → Except Fault State} (h : withTxn s body = .next s') :
    ∃ t, s.activity = .busy t ∧ body t = .ok s' := by
  cases ha : s.activity with
  | idle => rw [withTxn_idle ha] at h; cases h
  | busy t => exact ⟨t, rfl, toOutcome_next.mp (withTxn_busy ha body ▸ h)⟩

/-- A sequence of two checked computations ends well only when both do. -/
theorem bind_ok {α β : Type} {x : Except Fault α} {f : α → Except Fault β} {b : β} (h : x >>= f = .ok b) :
    ∃ a, x = .ok a ∧ f a = .ok b := by
  cases x with
  | error e => cases h
  | ok a => exact ⟨a, rfl, h⟩

/-! ## Requests -/

/-- A presented request is accepted, or is none and changes nothing. -/
theorem offer_cases (r : Request) (s : State) :
    (presentable s.frameLength r = true ∧ offer r s = accept r s) ∨
      (presentable s.frameLength r = false ∧ offer r s = s) := by
  by_cases h : presentable s.frameLength r = true
  · exact .inl ⟨h, by simp [offer, h]⟩
  · exact .inr ⟨by simpa using h, by simp [offer, h]⟩

@[simp] theorem accept_loc (r : Request) (s : State) (t : Txn) (h : (accept r s).activity = .busy t) :
    t.loc = Locals.initial s.form := by
  simp only [accept_activity, Activity.busy.injEq] at h
  rw [← h]

/-- `RAW` as a byte space. -/
theorem raw_eq (t : Txn) : t.raw = Memory.ofBytes t.req.raw := rfl

/-! ## The lane field -/

/-- The loop that strips the lane field of a packet finds the stripped name's length, and the name is the bytes from
offset 1 on. -/
theorem laneLength_ofBytes (tag l0 l1 l2 : Byte) (rest : List Byte) :
    laneLength (Memory.ofBytes (tag :: l0 :: l1 :: l2 :: rest)) 3 = .ok (stripPadding [l0, l1, l2]).length ∧
      ((tag :: l0 :: l1 :: l2 :: rest).drop 1).take (stripPadding [l0, l1, l2]).length =
        stripPadding [l0, l1, l2] := by
  by_cases h2 : l2 = 0#8
  · by_cases h1 : l1 = 0#8
    · by_cases h0 : l0 = 0#8 <;>
        simp [laneLength, ofBytes_read, bind, Except.bind, pure, Except.pure, stripPadding, h0, h1, h2]
    · simp [laneLength, ofBytes_read, bind, Except.bind, pure, Except.pure, stripPadding, h1, h2]
  · simp [laneLength, ofBytes_read, bind, Except.bind, pure, Except.pure, stripPadding, h2]

/-! ## Payloads -/

@[simp] theorem serFrame_length (qs : List Quantized) : (serFrame qs).length = 2 * qs.length := by
  induction qs with
  | nil => rfl
  | cons q qs ih => simp only [serFrame, List.length_cons, ih]; omega

theorem loByte_toNat (q : Quantized) : (loByte q).toNat = q.toNat % 256 := by simp [loByte]

theorem hiByte_toNat (q : Quantized) : (hiByte q).toNat = q.toNat / 256 := by
  have := q.isLt
  simp only [hiByte, BitVec.extractLsb'_toNat, Nat.shiftRight_eq_div_pow]
  omega

theorem ofLoHi_toNat (lo hi : Byte) : (ofLoHi lo hi).toNat = hi.toNat * 256 + lo.toNat := by
  simp only [ofLoHi, BitVec.toNat_append]
  rw [← Nat.shiftLeft_add_eq_or_of_lt lo.isLt, Nat.shiftLeft_eq]

/-- A sample is its two bytes. -/
@[simp] theorem ofLoHi_bytes (q : Quantized) : ofLoHi (loByte q) (hiByte q) = q := by
  apply BitVec.eq_of_toNat_eq
  rw [ofLoHi_toNat, loByte_toNat, hiByte_toNat]
  omega

@[simp] theorem loByte_ofLoHi (lo hi : Byte) : loByte (ofLoHi lo hi) = lo := by
  have := lo.isLt
  apply BitVec.eq_of_toNat_eq
  rw [loByte_toNat, ofLoHi_toNat]
  omega

@[simp] theorem hiByte_ofLoHi (lo hi : Byte) : hiByte (ofLoHi lo hi) = hi := by
  have := lo.isLt
  apply BitVec.eq_of_toNat_eq
  rw [hiByte_toNat, ofLoHi_toNat]
  omega

/-! ## The validator's two machines, run in two portions -/

theorem runStages_add (fl : Nat) (raw : Memory) (m n : Nat) (l : Locals) :
    runStages fl raw (m + n) l = (runStages fl raw m l).bind (runStages fl raw n) := by
  induction m generalizing l with
  | zero => simp [runStages, Except.bind]
  | succ m ih =>
    rw [show m + 1 + n = (m + n) + 1 by omega]
    simp only [runStages, bind]
    cases stageStep fl raw l with
    | error _ => rfl
    | ok l' => exact ih l'

theorem runSerial_append (fl : Nat) (xs ys : List Byte) (l : Locals) :
    runSerial fl (xs ++ ys) l = (runSerial fl xs l).bind (runSerial fl ys) := by
  induction xs generalizing l with
  | nil => rfl
  | cons x xs ih =>
    simp only [List.cons_append, runSerial, bind]
    cases serialStep fl x l with
    | error _ => rfl
    | ok l' => exact ih l'

end Sys2Proof.Laws
end

