-- ==== Sys2Proof/Laws/PerInstr.lean ====
section
/-! SUPPORT. The family CodeRoundTrip: one lemma per constructor of Instr. -/

namespace Sys2Proof.Laws

/-- The row's byte decodes to the row, in its own byte space. -/
def CodeRoundTrip.Statement (i : Instr) : Prop := decodeIn i.space (encode i) = .ok i

theorem CodeRoundTrip.quant : CodeRoundTrip.Statement .quant := rfl
theorem CodeRoundTrip.dequant : CodeRoundTrip.Statement .dequant := rfl
theorem CodeRoundTrip.issil : CodeRoundTrip.Statement .issil := rfl
theorem CodeRoundTrip.fser : CodeRoundTrip.Statement .fser := rfl
theorem CodeRoundTrip.fdes : CodeRoundTrip.Statement .fdes := rfl
theorem CodeRoundTrip.enc : CodeRoundTrip.Statement .enc := rfl
theorem CodeRoundTrip.val : CodeRoundTrip.Statement .val := rfl
theorem CodeRoundTrip.vals : CodeRoundTrip.Statement .vals := rfl
theorem CodeRoundTrip.dec : CodeRoundTrip.Statement .dec := rfl
theorem CodeRoundTrip.pktN : CodeRoundTrip.Statement .pktN := rfl
theorem CodeRoundTrip.pktS : CodeRoundTrip.Statement .pktS := rfl

end Sys2Proof.Laws
end

