-- ==== Sys2Proof/Laws/Step.lean ====
section
/-! SUPPORT. Once for the step and for what a BUSY block does: everything it can do. -/

namespace Sys2Proof.Laws

open Sys2Proof.Machine

/-- Everything a step can do, by the host's input and IDLE or BUSY. -/
theorem step_cases {s s' : State} (h : step s = .next s') :
    (nextInput s = .reset ∧ s' = applyReset (takeInput s)) ∨
    (∃ r, nextInput s = .request r ∧ s.activity = .idle ∧ s' = offer r (takeInput s)) ∨
    (nextInput s = .quiet ∧ s.activity = .idle ∧ s' = takeInput s) ∨
    (∃ t, nextInput s ≠ .reset ∧ s.activity = .busy t ∧ advance (takeInput s) = .next s') := by
  unfold step at h
  cases hi : nextInput s with
  | reset => simp only [hi] at h; exact .inl ⟨rfl, (Host.Outcome.next.inj h).symm⟩
  | quiet =>
    simp only [hi] at h
    cases ha : s.activity with
    | idle =>
      simp only [advance, takeInput_activity, ha] at h
      exact .inr (.inr (.inl ⟨rfl, rfl, (Host.Outcome.next.inj h).symm⟩))
    | busy t => exact .inr (.inr (.inr ⟨t, by simp, rfl, h⟩))
  | request r =>
    simp only [hi] at h
    cases ha : s.activity with
    | idle =>
      simp only [ha] at h
      exact .inr (.inl ⟨r, rfl, rfl, (Host.Outcome.next.inj h).symm⟩)
    | busy t =>
      simp only [ha] at h
      exact .inr (.inr (.inr ⟨t, by simp, rfl, h⟩))

/-- A BUSY block's step, when the host applies no RESET. -/
theorem step_busy {s : State} {t : Txn} (ha : s.activity = .busy t) (hi : nextInput s ≠ .reset) :
    step s = advance (takeInput s) := by
  unfold step
  cases h : nextInput s with
  | reset => exact absurd h hi
  | quiet => rfl
  | request r => simp [ha]

/-- Everything a BUSY block can do in a step: answer an illegal command, run its command at once, or take one step of a
byte-serial validation. -/
theorem advance_busy {s : State} {t : Txn} (ha : s.activity = .busy t) :
    (∃ e, decodeCmd t.req.cmd = .error e ∧ advance s = .next (raise .cmdIllegal s)) ∨
    (∃ i, decodeCmd t.req.cmd = .ok i ∧ (s.form = .stage ∨ usesValidator i = false) ∧ advance s = exec i s) ∨
    (∃ i, decodeCmd t.req.cmd = .ok i ∧ s.form = .serial ∧ usesValidator i = true ∧
      advance s = serialAdvance i t s) := by
  unfold advance
  simp only [ha]
  cases hd : decodeCmd t.req.cmd with
  | error e => exact .inl ⟨e, rfl, rfl⟩
  | ok i =>
    by_cases hc : s.form = .serial ∧ usesValidator i = true
    · exact .inr (.inr ⟨i, rfl, hc.1, hc.2, by simp [hc]⟩)
    · refine .inr (.inl ⟨i, rfl, ?_, by simp only [hc, if_false]⟩)
      cases hf : s.form with
      | stage => exact .inl rfl
      | serial => exact .inr (by simpa [hf] using hc)

/-- Everything a step of a byte-serial validation can do: consume the next byte (a tag at `BS_TYPE` is its row), or
answer when none is left. -/
theorem serialAdvance_cases (i : Instr) (t : Txn) (s : State) :
    (∃ b tag, t.raw.read t.loc.pos = .ok b ∧ t.loc.vst = .serial .type ∧ decodeTag b = .ok tag ∧
      serialAdvance i t s = exec tag s) ∨
    (∃ b, t.raw.read t.loc.pos = .ok b ∧ (t.loc.vst ≠ .serial .type ∨ ∃ e, decodeTag b = .error e) ∧
      serialAdvance i t s = toOutcome (serialStep s.frameLength b t.loc >>= fun l => pure (setLocals t l s))) ∨
    (∃ f, t.raw.read t.loc.pos = .error f ∧ serialAdvance i t s = toOutcome (serialFinish i t s)) := by
  unfold serialAdvance
  cases hr : t.raw.read t.loc.pos with
  | error f => exact .inr (.inr ⟨f, rfl, rfl⟩)
  | ok b =>
    by_cases hv : t.loc.vst = .serial .type
    · cases hd : decodeTag b with
      | ok tag => exact .inl ⟨b, tag, rfl, hv, hd, by simp only [hv, hd]⟩
      | error e => exact .inr (.inl ⟨b, rfl, .inr ⟨e, hd⟩, by simp only [hv, hd]⟩)
    · refine .inr (.inl ⟨b, rfl, .inl hv, ?_⟩)
      split
      · rename_i h; cases h
      · rename_i b' h
        obtain rfl := Except.ok.inj h
        split
        · rename_i h1 _; exact absurd h1 hv
        · rfl

/-- Every command that answers a next state completes its transaction: IDLE, one response, nothing else changed. -/
theorem exec_command_next {i : Instr} {s s' : State} (hi : i.space = .command) (h : exec i s = .next s') :
    ∃ t r, s.activity = .busy t ∧ s' = s.completed r := by
  cases i with
  | pktN => cases hi
  | pktS => cases hi
  | quant => obtain ⟨t, ha, hb⟩ := withTxn_next h; exact ⟨t, _, ha, (Except.ok.inj hb).symm⟩
  | dequant => obtain ⟨t, ha, hb⟩ := withTxn_next h; exact ⟨t, _, ha, (Except.ok.inj hb).symm⟩
  | issil => obtain ⟨t, ha, hb⟩ := withTxn_next h; exact ⟨t, _, ha, (Except.ok.inj hb).symm⟩
  | fser => obtain ⟨t, ha, hb⟩ := withTxn_next h; exact ⟨t, _, ha, (Except.ok.inj hb).symm⟩
  | fdes => obtain ⟨t, ha, hb⟩ := withTxn_next h; exact ⟨t, _, ha, (Except.ok.inj hb).symm⟩
  | enc =>
    obtain ⟨t, ha, hb⟩ := withTxn_next h
    cases hc : encCheck s.frameLength t.req with
    | some e => simp only [hc] at hb; exact ⟨t, _, ha, (Except.ok.inj hb).symm⟩
    | none =>
      simp only [hc] at hb
      obtain ⟨l, _, hl⟩ := bind_ok hb
      exact ⟨t, _, ha, (Except.ok.inj hl).symm⟩
  | val =>
    obtain ⟨t, ha, hb⟩ := withTxn_next h
    obtain ⟨v, _, hv⟩ := bind_ok hb
    exact ⟨t, _, ha, (Except.ok.inj hv).symm⟩
  | vals =>
    obtain ⟨t, ha, hb⟩ := withTxn_next h
    obtain ⟨v, _, hv⟩ := bind_ok hb
    obtain rfl := Except.ok.inj hv
    unfold answerVals
    cases strictErr v with
    | none => exact ⟨t, _, ha, rfl⟩
    | some e => exact ⟨t, _, ha, rfl⟩
  | dec =>
    obtain ⟨t, ha, hb⟩ := withTxn_next h
    obtain ⟨v, _, hv⟩ := bind_ok hb
    unfold answerDec at hv
    cases hd : decErr v with
    | some e => simp only [hd] at hv; exact ⟨t, _, ha, (Except.ok.inj hv).symm⟩
    | none =>
      simp only [hd] at hv
      obtain ⟨res, _, hr⟩ := bind_ok hv
      exact ⟨t, _, ha, (Except.ok.inj hr).symm⟩

/-- A packet tag that answers a next state moved the validator on and changed nothing outside its local variables. -/
theorem exec_tag_next {i : Instr} {s s' : State} (hi : i.space = .packet) (h : exec i s = .next s') :
    ∃ t l, s.activity = .busy t ∧ takeTag (if i = .pktN then 0#1 else 1#1) t.loc = .ok l ∧ s' = setLocals t l s := by
  cases i with
  | pktN =>
    obtain ⟨t, ha, hb⟩ := withTxn_next h
    obtain ⟨l, hl, hr⟩ := bind_ok hb
    exact ⟨t, l, ha, hl, (Except.ok.inj hr).symm⟩
  | pktS =>
    obtain ⟨t, ha, hb⟩ := withTxn_next h
    obtain ⟨l, hl, hr⟩ := bind_ok hb
    exact ⟨t, l, ha, hl, (Except.ok.inj hr).symm⟩
  | quant => cases hi
  | dequant => cases hi
  | issil => cases hi
  | fser => cases hi
  | fdes => cases hi
  | enc => cases hi
  | val => cases hi
  | vals => cases hi
  | dec => cases hi

/-- The tags are the only packet rows the packet decoder gives. -/
theorem decodeTag_cases {b : Byte} {i : Instr} (h : decodeTag b = .ok i) :
    (b = Config.typeNormal ∧ i = .pktN) ∨ (b = Config.typeSilent ∧ i = .pktS) := by
  unfold decodeTag at h
  split at h
  · exact .inl ⟨‹_›, (Except.ok.inj h).symm⟩
  · split at h
    · exact .inr ⟨‹_›, (Except.ok.inj h).symm⟩
    · cases h

end Sys2Proof.Laws
end

