-- ==== Sys2Proof/Tests/Slice0.lean ====
section
/-! SUPPORT. Small tests: what the well-formedness checks refuse, words written out bit by bit, vectors of
95_test_vectors.md one step each, and for every statement with hypotheses a state and operands that meet them. -/

namespace Sys2Proof.Tests

open Sys2Proof.Machine

/-! ## Helpers -/

/-- An instance whose block has just accepted `r`. -/
def busyWith (fl : Nat) (form : ValidatorForm) (r : Request) : State := accept r (State.afterReset fl form)

/-- The transaction it has in progress. -/
def freshTxn (form : ValidatorForm) (r : Request) : Txn := { req := r, loc := Locals.initial form }

/-- The response one step gives. -/
def given (s : State) : Option Response :=
  match step s with
  | .next s' => s'.resp
  | .fault _ => none
  | .refused _ => none

/-- The response to a request at `FRAME_LENGTH = 4`, the vectors' value. -/
def reply (r : Request) : Option Response := given (busyWith 4 .stage r)

/-- A byte-serial validation of `raw` at `FRAME_LENGTH = 4` whose machine stands at `st` with `pos` bytes consumed. -/
def serialAt (i : Instr) (raw : List Byte) (st : Serial) (pos : Nat) : State :=
  { busyWith 4 .serial { cmd := encode i, raw := raw } with
    activity := .busy { req := { cmd := encode i, raw := raw },
                        loc := { Locals.initial .serial with vst := .serial st, pos := pos } } }

/-- The next state of an outcome. -/
def nextOf (o : Host.Outcome State Fault Refusal) : Option State :=
  match o with
  | .next s => some s
  | .fault _ => none
  | .refused _ => none

theorem eq_next {o : Host.Outcome State Fault Refusal} {s : State} (h : nextOf o = some s) : o = .next s := by
  cases o with
  | next s' => exact congrArg _ (Option.some.inj h)
  | fault f => cases h
  | refused r => cases h

/-- Where a stage step that answers leaves the validator. -/
def stageVst (o : Except Fault Locals) : Option VState :=
  match o with
  | .ok l => some l.vst
  | .error _ => none

/-- The value of a normal pattern from its three fields. -/
theorem value32_of {w : Sample} {e f : ℕ} {n : Bool} (hn : f32Negative w = n) (he : f32Exponent w = e)
    (hf : f32Fraction w = f) (h0 : e ≠ 0) :
    value32 w = (if n then -1 else 1) * (2 ^ 23 + (f : ℚ)) * (2 : ℚ) ^ ((e : ℤ) - 150) := by
  simp [value32, f32SignQ, hn, he, hf, h0]

/-- Operands of `n` elements. -/
theorem lengthsOk_audio (n : ℕ) :
    (Request.encodePacket (List.replicate n 0#32) [] []).lengthsOk = decide (n ≤ 65535) := by
  simp [Request.lengthsOk, Request.encodePacket]
theorem lengthsOk_lane (n : ℕ) :
    (Request.encodePacket [] (List.replicate n 0#8) []).lengthsOk = decide (n ≤ 65535) := by
  simp [Request.lengthsOk, Request.encodePacket]
theorem lengthsOk_ext (n : ℕ) :
    (Request.encodePacket [] [] (List.replicate n 0#8)).lengthsOk = decide (n ≤ 65535) := by
  simp [Request.lengthsOk, Request.encodePacket]
theorem lengthsOk_raw (n : ℕ) : (Request.decodePacket (List.replicate n 0#8)).lengthsOk = decide (n ≤ 65535) := by
  simp [Request.lengthsOk, Request.decodePacket]
theorem presentable_raw (n : ℕ) :
    presentable 1 (Request.decodePacket (List.replicate n 0#8)) = decide (n ≤ 65535) := by
  have hd : decodeCmd (Request.decodePacket (List.replicate n 0#8)).cmd = .ok .dec :=
    (by decide : decodeCmd (encode .dec) = .ok .dec)
  simp only [presentable, lengthsOk_raw, hd, Instr.operandsOk, Bool.and_true]

/-! ## Well-formedness: each check refuses an ill-formed term -/

theorem test_frameLength_zero_refused : frameLengthOk 0 = false := by decide
theorem test_frameLength_too_large_refused : frameLengthOk 32638 = false := by decide
theorem test_frameLength_bounds_accepted : frameLengthOk 1 = true ∧ frameLengthOk 32637 = true := by decide

theorem test_long_audio_refused :
    (Request.encodePacket (List.replicate 65536 0#32) [] []).lengthsOk = false := (lengthsOk_audio 65536).trans (by decide)
theorem test_long_lane_refused :
    (Request.encodePacket [] (List.replicate 65536 0#8) []).lengthsOk = false := (lengthsOk_lane 65536).trans (by decide)
theorem test_long_ext_refused :
    (Request.encodePacket [] [] (List.replicate 65536 0#8)).lengthsOk = false := (lengthsOk_ext 65536).trans (by decide)
theorem test_long_raw_refused : (Request.decodePacket (List.replicate 65536 0#8)).lengthsOk = false :=
  (lengthsOk_raw 65536).trans (by decide)
theorem test_longest_raw_accepted : (Request.decodePacket (List.replicate 65535 0#8)).lengthsOk = true :=
  (lengthsOk_raw 65535).trans (by decide)

theorem test_short_frame_of_issil_refused : Instr.issil.operandsOk 4 (.isSilent [0#16, 0#16, 0#16]) = false := by decide
theorem test_long_frame_of_fser_refused :
    Instr.fser.operandsOk 4 (.serialize [0#16, 0#16, 0#16, 0#16, 0#16]) = false := by decide
theorem test_odd_payload_of_fdes_refused : Instr.fdes.operandsOk 1 (.deserialize [0#8]) = false := by decide

theorem test_packet_checks_refuse :
    (Packet.normal [0#8, 0#8] [0#16] []).wf 1 = false ∧ (Packet.normal [0#8, 0#8, 0#8] [] []).wf 1 = false ∧
    (Packet.silent [0#8, 0#8, 0#8, 0#8] []).wf 1 = false := by decide
theorem test_long_extension_refused :
    (Packet.silent [0#8, 0#8, 0#8] (List.replicate 256 0#8)).wf 1 = false ∧
    (Packet.normal [0#8, 0#8, 0#8] [0#16] (List.replicate 256 0#8)).wf 1 = false := by decide +kernel

/-! ## Decoding: the words written out, `{reserved 7:5, STRICT 4, OP 3:0}` (30_encoding.md R59, R60) and the tags of R51 -/

theorem test_word_quant : decodeCmd 0b000_0_0000#8 = .ok .quant := by decide
theorem test_word_dequant : decodeCmd 0b000_0_0001#8 = .ok .dequant := by decide
theorem test_word_issil : decodeCmd 0b000_0_0010#8 = .ok .issil := by decide
theorem test_word_fser : decodeCmd 0b000_0_0011#8 = .ok .fser := by decide
theorem test_word_fdes : decodeCmd 0b000_0_0100#8 = .ok .fdes := by decide
theorem test_word_enc : decodeCmd 0b000_0_0101#8 = .ok .enc := by decide
theorem test_word_val : decodeCmd 0b000_0_0110#8 = .ok .val := by decide
theorem test_word_vals : decodeCmd 0b000_1_0110#8 = .ok .vals := by decide
theorem test_word_dec : decodeCmd 0b000_0_0111#8 = .ok .dec :=
    (by decide : decodeCmd (encode .dec) = .ok .dec)
theorem test_word_pktN : decodeTag 0b0001_0000#8 = .ok .pktN := by decide
theorem test_word_pktS : decodeTag 0b0001_0001#8 = .ok .pktS := by decide
/-- `STRICT` with another operation, an `OP` that is none, a reserved bit; a TypeId that is no tag (R57). -/
theorem test_bad_words_refused :
    decodeCmd 0b000_1_0000#8 = .error (.illegalCommand 0x10#8) ∧
    decodeCmd 0b000_0_1000#8 = .error (.illegalCommand 0x08#8) ∧
    decodeCmd 0b001_0_0110#8 = .error (.illegalCommand 0x26#8) ∧
    decodeTag 0x20#8 = .error (.notATag 0x20#8) := by decide
/-- The packet of S1 with `FRAME_LENGTH = 1` in 95_test_vectors.md section 5.3. -/
theorem test_packet_normal_decodes :
    Packet.decode 1 [0x10#8, 0x5A#8, 0x00#8, 0x00#8, 0x01#8, 0xFF#8, 0x7F#8, 0x01#8] =
      some (.normal [0x5A#8, 0x00#8, 0x00#8] [0x7FFF#16] [0x01#8]) := by decide
theorem test_packet_silent_decodes :
    Packet.decode 1 [0x11#8, 0x5A#8, 0x00#8, 0x00#8, 0x01#8, 0x01#8] =
      some (.silent [0x5A#8, 0x00#8, 0x00#8] [0x01#8]) := by decide

/-! ## Vectors of 95_test_vectors.md, one step each -/

/-- Section 2.2: a product first rounded to binary32 would give 2. -/
theorem test_quant_exact_product :
    reply (.quantize 0x38400180#32) = some { status := 0x0001#16, results := .quantized 0x0001#16 } := by decide
/-- Section 2.4: the first pattern that gives -32768. -/
theorem test_quant_below_minus_one :
    reply (.quantize 0xBF800081#32) = some { status := 0x0001#16, results := .quantized 0x8000#16 } := by decide
/-- Section 3. -/
theorem test_dequant_minus_32768 :
    reply (.dequantize 0x8000#16) = some { status := 0x0001#16, results := .sample 0xBF800100#32 } := by decide
theorem test_dequant_12345 :
    reply (.dequantize 0x3039#16) = some { status := 0x0001#16, results := .sample 0x3EC0E582#32 } := by decide
/-- Section 4. -/
theorem test_issil_high_byte_only :
    reply (.isSilent [0x0100#16, 0#16, 0#16, 0#16]) = some { status := 0x0001#16, results := .nothing } := by decide
theorem test_issil_zero :
    reply (.isSilent [0#16, 0#16, 0#16, 0#16]) = some { status := 0x0003#16, results := .nothing } := by decide
theorem test_fser_low_byte_first :
    reply (.serialize [0x1234#16, 0xABCD#16, 0x00FF#16, 0xFF00#16]) =
      some { status := 0x0001#16,
             results := .payload [0x34#8, 0x12#8, 0xCD#8, 0xAB#8, 0xFF#8, 0x00#8, 0x00#8, 0xFF#8] } := by decide
theorem test_fdes_high_byte_from_higher_offset :
    reply (.deserialize [0x01#8, 0x02#8, 0x03#8, 0x04#8, 0x05#8, 0x06#8, 0x07#8, 0x08#8]) =
      some { status := 0x0001#16, results := .frame [0x0201#16, 0x0403#16, 0x0605#16, 0x0807#16] } := by decide
/-- E1. -/
theorem test_enc_normal :
    reply (.encodePacket [0x3E800000#32, 0x3DCCCCCD#32, 0xBDCCCCCD#32, 0x00000000#32] [0x41#8] [0xAA#8]) =
      some { status := 0x0001#16,
             results := .packet [0x10#8, 0x41#8, 0x00#8, 0x00#8, 0x01#8, 0x00#8, 0x20#8, 0xCD#8, 0x0C#8, 0x33#8, 0xF3#8,
               0x00#8, 0x00#8, 0xAA#8] } := by decide
/-- X7: the whole name is scanned, before its length is checked. -/
theorem test_enc_ascii_before_length :
    reply (.encodePacket [0#32, 0#32, 0#32, 0#32] [0x41#8, 0x42#8, 0x43#8, 0x44#8, 0x80#8] []) =
      some { status := 0x0408#16, results := .nothing } := by decide
/-- V2 and V15. -/
theorem test_val_not_a_tag :
    reply (.validate [0x20#8] false) = some { status := 0x0001#16, results := .nothing } := by decide
theorem test_val_silent_packet :
    reply (.validate [0x11#8, 0x41#8, 0x42#8, 0x43#8, 0x01#8, 0x77#8] false) =
      some { status := 0x0003#16, results := .nothing } := by decide
/-- V13, the case the source calls impossible, and V29. -/
theorem test_vals_silent_short :
    reply (.validate [0x11#8, 0x41#8, 0x42#8, 0x43#8, 0x04#8, 0x01#8, 0x02#8] true) =
      some { status := 0x1508#16, results := .nothing } := by decide
theorem test_vals_silent_long :
    reply (.validate ([0x11#8, 0x41#8, 0x42#8, 0x43#8, 0x00#8] ++ List.replicate 8 0x00#8) true) =
      some { status := 0x1708#16, results := .nothing } := by decide
/-- V28 and V27. -/
theorem test_dec_normal :
    reply (.decodePacket [0x10#8, 0x41#8, 0x42#8, 0x43#8, 0x01#8, 0x00#8, 0x80#8, 0xFF#8, 0xFF#8, 0x01#8, 0x00#8, 0xFF#8,
        0x7F#8, 0xEE#8]) =
      some { status := 0x0001#16,
             results := .decoded [0xBF800100#32, 0xB8000100#32, 0x38000100#32, 0x3F800000#32] [0x41#8, 0x42#8, 0x43#8]
               [0xEE#8] } := by decide
theorem test_dec_lane_not_checked :
    reply (.decodePacket [0x11#8, 0x41#8, 0x80#8, 0xFF#8, 0x01#8, 0x07#8]) =
      some { status := 0x0001#16,
             results := .decoded [0#32, 0#32, 0#32, 0#32] [0x41#8, 0x80#8, 0xFF#8] [0x07#8] } := by decide
/-- Section 6.2: the tag consumed at `BS_TYPE`, one step. -/
theorem test_pktN_consumes_the_tag :
    step (serialAt .val [0x10#8] .type 0) = .next (serialAt .val [0x10#8] .lane0 1) := eq_next (by decide)
theorem test_pktS_sets_typ :
    (match step (serialAt .val [0x11#8, 0x41#8] .type 0) with
      | .next s => (match s.activity with
        | .busy t => decide (t.loc.typ = 1#1 ∧ t.loc.vst = .serial .lane0 ∧ t.loc.pos = 1)
        | .idle => false)
      | .fault _ => false
      | .refused _ => false) = true := by decide
/-- Section 6.2: the last step, all bytes consumed, in `BS_OVER` of a NORMAL packet. -/
theorem test_serial_verdict_over :
    given (serialAt .vals [0x10#8] .over 1) = some { status := 0x1608#16, results := .nothing } := by decide
/-- 30_encoding.md R64. -/
theorem test_illegal_command :
    given (busyWith 4 .stage { cmd := 0x17#8 }) = some { status := 0x7F0C#16, results := .nothing } := by decide

/-! ## Witnesses: the hypotheses of the statements are met -/

theorem witness_RowBytesDecodeAndEncode :
    decodeIn .command 0x16#8 = .ok .vals ∧ decodeIn .packet 0x11#8 = .ok .pktS := by decide

/-- Both formats, the extension empty and at its longest. -/
theorem witness_PacketDecodeEncodeRoundTrip :
    (Packet.normal [0x41#8, 0x00#8, 0x00#8] [0x8000#16] (List.replicate 255 0x00#8)).wf 1 = true ∧
    (Packet.silent [0xFF#8, 0x00#8, 0x41#8] []).wf 32637 = true := by decide +kernel

theorem witness_PacketEncodeDecodeRoundTrip :
    Packet.decode 1 [0x10#8, 0#8, 0#8, 0#8, 0#8, 1#8, 2#8] = some (.normal [0#8, 0#8, 0#8] [0x0201#16] []) ∧
    Packet.decode 1 [0x11#8, 0#8, 0#8, 0#8, 0#8] = some (.silent [0#8, 0#8, 0#8] []) := by decide

/-- Both ways of the hypothesis on the validator's build. -/
theorem witness_StepRunsTheDecodedCommand :
    let s := busyWith 1 .stage (.validate [0x20#8] true)
    let s' := busyWith 1 .serial (.quantize 0x3F000000#32)
    (s.activity = .busy (freshTxn .stage (.validate [0x20#8] true)) ∧ decodeCmd 0x16#8 = .ok .vals ∧
      nextInput s ≠ .reset ∧ s.form = .stage) ∧
    s'.activity = .busy (freshTxn .serial (.quantize 0x3F000000#32)) ∧ decodeCmd 0x00#8 = .ok .quant ∧
      nextInput s' ≠ .reset ∧ usesValidator .quant = false := by decide

theorem witness_StepRunsTheDecodedTag :
    let s := busyWith 1 .serial (.decodePacket [0x11#8])
    let t := freshTxn .serial (.decodePacket [0x11#8])
    s.form = .serial ∧ s.activity = .busy t ∧ decodeCmd t.req.cmd = .ok .dec ∧ usesValidator .dec = true ∧
      nextInput s ≠ .reset ∧ t.loc.vst = .serial .type ∧ t.raw.read t.loc.pos = .ok 0x11#8 ∧
      decodeTag 0x11#8 = .ok .pktS := by decide

/-- The lowest and the highest illegal command. -/
theorem witness_IllegalCommandAnswersCommandError :
    (busyWith 1 .stage { cmd := 0x08#8 }).activity = .busy (freshTxn .stage { cmd := 0x08#8 }) ∧
    nextInput (busyWith 1 .stage { cmd := 0x08#8 }) ≠ .reset ∧
    (∀ b ∈ [0x08#8, 0xFF#8],
      b ∉ [0x00#8, 0x01#8, 0x02#8, 0x03#8, 0x04#8, 0x05#8, 0x06#8, 0x07#8, 0x16#8]) := by decide

/-- A request at the length limit, one above it, and a quiet host. -/
theorem witness_IdleBlockAcceptsOneRequest :
    (State.afterReset 1 .stage).activity = .idle ∧
    presentable 1 (.decodePacket (List.replicate 65535 0#8)) = true ∧
    presentable 1 (.decodePacket (List.replicate 65536 0#8)) = false ∧
    nextInput (State.afterReset 1 .stage) = .quiet :=
  ⟨rfl, (presentable_raw 65535).trans (by decide), (presentable_raw 65536).trans (by decide), rfl⟩

theorem witness_RequestWhileBusyHasNoEffect :
    let s := { busyWith 1 .serial (.validate [0x20#8] true) with inputs := [.request (.quantize 0#32)] }
    s.activity = .busy (freshTxn .serial (.validate [0x20#8] true)) ∧ s.inputs = .request (.quantize 0#32) :: [] := by
  decide

/-- RESET met in IDLE and while BUSY. -/
theorem witness_ResetAbandonsAndIdles :
    ({ State.reset with inputs := [.reset] } : State).inputs = .reset :: [] ∧
    ({ busyWith 1 .serial (.validate [0x20#8] true) with inputs := [.reset] } : State).inputs = .reset :: [] := by decide

theorem witness_ConstantsAreWrittenByNothing : step State.reset = .next State.reset := eq_next (by decide)

/-- The ends of the range of `FRAME_LENGTH`. -/
theorem witness_ResetMeetsTheInvariant : frameLengthOk 1 = true ∧ frameLengthOk 32637 = true := by decide

/-- For StepKeepsTheInvariant, EveryStepHasANextState and CountersFitSixteenBits: right after reset; and BUSY with a
byte-serial validation one byte on. -/
theorem witness_StepKeepsTheInvariant_idle : State.Inv State.reset ∧ step State.reset = .next State.reset :=
  ⟨⟨by decide, fun _ h => by simp [State.reset, State.afterReset] at h, fun _ h => by
    simp [State.reset, State.afterReset] at h⟩, eq_next (by decide)⟩
theorem witness_StepKeepsTheInvariant_busy :
    let s := serialAt .val [0x10#8] .lane0 1
    let l : Locals := { Locals.initial .serial with vst := .serial .lane0, pos := 1 }
    State.Inv s ∧ s.activity = .busy { req := .validate [0x10#8] false, loc := l } ∧ ∃ s', step s = .next s' := by
  refine ⟨⟨by decide, fun r h => by simp [serialAt, busyWith, accept, State.afterReset] at h, fun t h => ?_⟩, rfl,
    ⟨_, rfl⟩⟩
  simp only [serialAt, Activity.busy.injEq] at h
  subst h
  refine ⟨by decide, ?_⟩
  unfold Txn.progress
  decide

/-- The stage machine with `expected_len` at its largest, `MAX_PACKET` of the largest `FRAME_LENGTH`, and at 5. -/
theorem witness_CountersFitSixteenBits_stages :
    let longest := runStages 32637 (Memory.ofBytes [0x10#8, 0#8, 0#8, 0#8, 0xFF#8]) 5 (Locals.initial .stage)
    let shortest := runStages 1 (Memory.ofBytes [0x11#8, 0#8, 0#8, 0#8, 0x00#8]) 7 (Locals.initial .stage)
    frameLengthOk 32637 = true ∧ stageVst longest = some (.stage .short) ∧
      longest.toOption.map Locals.expectedLen = some 65534 ∧
    frameLengthOk 1 = true ∧ stageVst shortest = some (.stage .accept) ∧
      shortest.toOption.map Locals.expectedLen = some 5 := by decide

/-- A command that runs at once in either build: one that does not validate in the byte-serial build. -/
theorem witness_TransactionAnswersByItsRequest :
    let s := busyWith 1 .stage (.decodePacket [0x20#8])
    let s' := busyWith 1 .serial (.quantize 0x3F000000#32)
    (s.activity = .busy (freshTxn .stage (.decodePacket [0x20#8])) ∧ nextInput s ≠ .reset ∧ s.form = .stage) ∧
    s'.activity = .busy (freshTxn .serial (.quantize 0x3F000000#32)) ∧ nextInput s' ≠ .reset ∧
      Request.validates (.quantize 0x3F000000#32) = false := by decide

/-- An empty RAW and one of two bytes, with a host that presents a request meanwhile. -/
theorem witness_SerialTransactionAnswersTheSame :
    let r := Request.validate [0x11#8, 0x41#8] true
    let s := { busyWith 1 .serial r with inputs := [.quiet, .request (.quantize 0#32)] }
    (s.form = .serial ∧ s.activity = .busy (freshTxn .serial r) ∧ Request.validates r = true ∧
      (freshTxn .serial r).loc = Locals.initial .serial ∧ HostInput.reset ∉ s.inputs.take 3) ∧
    Request.validates (.validate [] false) = true := by decide

theorem witness_TransactionsAreIndependent :
    let rs := [Request.quantize 0x3F000000#32, .validate [0x20#8] true]
    let s := { State.afterReset 1 .stage with inputs := synchronous rs }
    s.form = .stage ∧ s.activity = .idle ∧ s.inputs = synchronous rs ∧ ∀ r ∈ rs, presentable s.frameLength r = true := by
  decide

/-- Requests that differ in fields the operation does not read. -/
theorem witness_OperationsReadOnlyTheirOperands :
    let r₁ : Request := .quantize 0x3F000000#32
    let r₂ : Request := { cmd := 0x07#8, sIn := 0x3F000000#32, raw := [0x20#8] }
    Instr.quant.space = .command ∧ (busyWith 1 .stage r₁).activity = .busy (freshTxn .stage r₁) ∧
      (busyWith 1 .serial r₂).activity = .busy (freshTxn .serial r₂) ∧ agreesOn .quant r₁ r₂ :=
  ⟨rfl, rfl, rfl, rfl⟩

/-- A success and an error response, each given by a step. -/
theorem witness_StatusWordsAreWellFormed :
    given (busyWith 1 .stage (.validate [] false)) = some { status := 0x0001#16, results := .nothing } ∧
    given (busyWith 1 .stage (.validate [] true)) = some { status := 0x1108#16, results := .nothing } := by decide

theorem witness_RowsStopOutsideTheirContext :
    State.reset.activity = .idle ∧
    (busyWith 1 .stage (.validate [] true)).activity = .busy (freshTxn .stage (.validate [] true)) ∧
    (freshTxn .stage (.validate [] true)).loc.vst ≠ .serial .type ∧
    (freshTxn .stage (.validate [] true)).loc.vst ≠ .stage .typeId := by decide

/-- A BUSY block. -/
theorem witness_QuantGivesTheRoundedProduct :
    (busyWith 1 .stage (.quantize 0x3F000000#32)).activity = .busy (freshTxn .stage (.quantize 0x3F000000#32)) := rfl
theorem witness_DequantGivesTheRoundedQuotient :
    (busyWith 1 .stage (.dequantize 0x8000#16)).activity = .busy (freshTxn .stage (.dequantize 0x8000#16)) := rfl

/-- Finite patterns on both sides of the zero set, and in the range. -/
theorem witness_QuantizeZeroSet :
    class32 0x7F800001#32 = .nan ∧ class32 0x37800100#32 = .finite ∧ |value32 0x37800100#32| < 1 / 65534 := by
  refine ⟨by decide, by decide, ?_⟩
  rw [value32_of (n := false) (e := 111) (f := 256) (by decide) (by decide) (by decide) (by decide)]
  norm_num [abs_of_pos]
theorem value_one : value32 0x3F800000#32 = 1 := by
  rw [value32_of (n := false) (e := 127) (f := 0) (by decide) (by decide) (by decide) (by decide)]
  norm_num
theorem value_minus_one : value32 0xBF800000#32 = -1 := by
  rw [value32_of (n := true) (e := 127) (f := 0) (by decide) (by decide) (by decide) (by decide)]
  norm_num
theorem witness_QuantizeRange :
    (inRange 0x3F800000#32 ∧ inRange 0xBF800000#32) ∧ quantize 0xFF800000#32 = 0x8000#16 ∧
      quantize 0xBF800081#32 = 0x8000#16 :=
  ⟨⟨⟨by decide, by simp [value_one]⟩, ⟨by decide, by simp [value_minus_one]⟩⟩, by decide, by decide⟩
theorem witness_QuantizeMonotoneAndOdd :
    class32 0xBF800000#32 = .finite ∧ class32 0x3F800000#32 = .finite ∧
      value32 0xBF800000#32 ≤ value32 0x3F800000#32 ∧ class32 0x7F800000#32 ≠ .nan :=
  ⟨by decide, by decide, by rw [value_one, value_minus_one]; norm_num, by decide⟩
theorem witness_DequantizeHasItsClosedForm : (0x8000#16 : Quantized) ≠ 0#16 := by decide
theorem witness_DequantizeIsNearest : class32 0x00000001#32 = .finite := by decide
theorem witness_DequantizeOddMonotoneInvertible :
    (0x7FFF#16 ≠ 0x0000#16 ∧ 0x7FFF#16 ≠ 0x8000#16) ∧ (0x8000#16 : Quantized).toInt < (0x7FFF#16).toInt := by decide
theorem witness_RoundTripContract : inRange 0xBF800000#32 := witness_QuantizeRange.1.2

theorem witness_IssilAnswersAllZero :
    (busyWith 1 .stage (.isSilent [0#16])).activity = .busy (freshTxn .stage (.isSilent [0#16])) ∧
    (∀ q ∈ (freshTxn .stage (.isSilent [0#16])).req.qfIn, q = 0x0000#16) ∧
    (busyWith 1 .stage (.isSilent [0x8000#16])).activity = .busy (freshTxn .stage (.isSilent [0x8000#16])) ∧
    ∃ q ∈ (freshTxn .stage (.isSilent [0x8000#16])).req.qfIn, q ≠ 0x0000#16 :=
  ⟨rfl, fun _ hq => List.mem_singleton.mp hq, rfl, 0x8000#16, List.mem_singleton.mpr rfl, by decide⟩
theorem witness_FserStoresLowByteFirst :
    (busyWith 1 .stage (.serialize [0x8000#16])).activity = .busy (freshTxn .stage (.serialize [0x8000#16])) ∧
    (freshTxn .stage (.serialize [0x8000#16])).req.qfIn.length = 1 ∧
    (freshTxn .stage (.serialize [0x8000#16])).req.qfIn[0]? = some 0x8000#16 := by decide
theorem witness_FdesLoadsHighByteFromHigherOffset :
    (busyWith 1 .stage (.deserialize [0#8, 0x80#8])).activity = .busy (freshTxn .stage (.deserialize [0#8, 0x80#8])) ∧
    (freshTxn .stage (.deserialize [0#8, 0x80#8])).req.plIn.length = 2 * 1 ∧
    (freshTxn .stage (.deserialize [0#8, 0x80#8])).req.plIn[0]? = some 0#8 ∧
    (freshTxn .stage (.deserialize [0#8, 0x80#8])).req.plIn[1]? = some 0x80#8 ∧
    [0x10#8, 0#8, 0#8, 0#8, 0#8].length = 5 := by decide
/-- Both directions' hypotheses, by the two rows on one frame. -/
theorem witness_FrameCodecIsABijection :
    let s₁ := busyWith 1 .stage (.serialize [0x1234#16])
    let s₂ := busyWith 1 .stage (.deserialize [0x34#8, 0x12#8])
    s₁.activity = .busy (freshTxn .stage (.serialize [0x1234#16])) ∧
    s₂.activity = .busy (freshTxn .stage (.deserialize [0x34#8, 0x12#8])) ∧
    exec .fser s₁ = .next (s₁.completed { status := 0x0001#16, results := .payload [0x34#8, 0x12#8] }) ∧
    exec .fdes s₂ = .next (s₂.completed { status := 0x0001#16, results := .frame [0x1234#16] }) :=
  ⟨rfl, rfl, eq_next (by decide), eq_next (by decide)⟩

/-- The last two bytes of a space. -/
theorem witness_MemReadIsLittleEndian :
    [0#8, 0x34#8, 0x12#8][1]? = some 0x34#8 ∧ [0#8, 0x34#8, 0x12#8][1 + 1]? = some 0x12#8 := by decide
theorem witness_MemWriteStoresItsBytesOnly : (Memory.ofBytes [1#8, 0#8, 2#8]).wf = true ∧
    1 + 2 ≤ (Memory.ofBytes [1#8, 0#8, 2#8]).size := by decide

/-- Each of the four checks at its boundary: one sample too few, code 0x80, four characters, 256 bytes. -/
theorem witness_EncReportsTheFirstFailingCheck :
    (let r := Request.encodePacket [] [] []
     (busyWith 1 .stage r).activity = .busy (freshTxn .stage r) ∧ r.audio.length ≠ 1) ∧
    (let r := Request.encodePacket [0#32] [0x80#8] []
     (busyWith 1 .stage r).activity = .busy (freshTxn .stage r) ∧ r.audio.length = 1 ∧ ∃ c ∈ r.lane, 127 < c.toNat) ∧
    (let r := Request.encodePacket [0#32] [0x7F#8, 0#8, 0#8, 0#8] []
     (busyWith 1 .stage r).activity = .busy (freshTxn .stage r) ∧ r.audio.length = 1 ∧ (∀ c ∈ r.lane, c.toNat ≤ 127) ∧
      3 < r.lane.length) ∧
    (let r := Request.encodePacket [0#32] [0x7F#8, 0#8, 0#8] (List.replicate 256 0#8)
     (busyWith 1 .stage r).activity = .busy (freshTxn .stage r) ∧ r.audio.length = 1 ∧ (∀ c ∈ r.lane, c.toNat ≤ 127) ∧
      r.lane.length ≤ 3 ∧ 255 < r.ext.length) := by decide +kernel

/-- Operands at the limits of ENC's checks. -/
theorem witness_EncEmitsThePacket :
    let r := Request.encodePacket [0x3F800000#32] [0x7F#8, 0#8, 0x41#8] (List.replicate 255 0x5A#8)
    (busyWith 1 .stage r).activity = .busy (freshTxn .stage r) ∧ encodable 1 r :=
  ⟨rfl, by decide +kernel, by decide +kernel, by decide +kernel, by decide +kernel⟩
theorem witness_EncodedPacketsAreWellFormed :
    let s := busyWith 1 .stage (.encodePacket [0x3F800000#32] [0x5A#8] [0x01#8])
    let pkt := [0x10#8, 0x5A#8, 0x00#8, 0x00#8, 0x01#8, 0xFF#8, 0x7F#8, 0x01#8]
    exec .enc s = .next (s.completed { status := 0x0001#16, results := .packet pkt }) := eq_next (by decide)
/-- A frame of the largest sample that is silent, and the packet DEC is given. -/
theorem witness_SilenceCollapse :
    let r₁ := Request.encodePacket [0x37800100#32] [0x5A#8] [0x01#8]
    let r₂ := Request.decodePacket [0x11#8, 0x5A#8, 0x00#8, 0x00#8, 0x01#8, 0x01#8]
    let s₁ := busyWith 1 .stage r₁
    s₁.activity = .busy (freshTxn .stage r₁) ∧ (busyWith 1 .stage r₂).activity = .busy (freshTxn .stage r₂) ∧
      encodable 1 r₁ ∧ (∀ w ∈ r₁.audio, quantize w = 0x0000#16) ∧
      exec .enc s₁ = .next (s₁.completed { status := 0x0001#16, results := .packet r₂.raw }) := by
  refine ⟨rfl, rfl, ⟨by decide, by decide, by decide, by decide⟩, fun w hw => ?_, eq_next (by decide)⟩
  rw [List.mem_singleton.mp hw]
  decide

/-- Each of the two places where the validator awaits the TypeId. -/
theorem witness_TagsSetTheType :
    let t := freshTxn .serial (.validate [0x10#8] true)
    let t' : Txn := { t with loc := { Locals.initial .stage with vst := .stage .typeId } }
    (busyWith 1 .serial (.validate [0x10#8] true)).activity = .busy t ∧ t.loc.vst = .serial .type ∧
    (setLocals t t'.loc (busyWith 1 .stage t.req)).activity = .busy t' ∧ t'.loc.vst = .stage .typeId := by
  decide
/-- A stage that passes on, a stage that rejects, and the two final ones. -/
theorem witness_StagesOnlyAdvance :
    let at' (st : Stage) : Locals := { Locals.initial .stage with vst := .stage st }
    (stageVst (stageStep 1 (Memory.ofBytes [0x20#8]) (at' .empty)) = some (.stage .typeId) ∧
      stageVst (stageStep 1 (Memory.ofBytes []) (at' .empty)) = some (.stage .reject)) ∧
    stageVst (stageStep 1 (Memory.ofBytes []) (at' .accept)) = some (.stage .accept) ∧
    stageVst (stageStep 1 (Memory.ofBytes []) (at' .reject)) = some (.stage .reject) := by decide

/-- The smallest and the shortest NORMAL packet at `FRAME_LENGTH = 1`; a packet with a byte appended; another tag. -/
theorem witness_VerdictFacts :
    packetVerdict 1 [0x11#8, 0x41#8, 0x42#8, 0x43#8, 0x00#8] = .ok .ok ∧
    packetVerdict 1 [0x10#8, 0x41#8, 0x42#8, 0x43#8, 0x00#8, 0x00#8, 0x00#8] = .ok .ok ∧
    ([0x01#8] : List Byte) ≠ [] ∧ (0x20#8 : Byte) ≠ 0x10#8 ∧ (0x20#8 : Byte) ≠ 0x11#8 ∧
    ([0x10#8, 0xFF#8, 0x42#8, 0x43#8, 0x00#8, 0x01#8, 0x00#8] : List Byte)[0]? = some 0x10#8 := by decide
theorem witness_ValAnswersWellFormedness :
    let r := Request.validate [0x11#8, 0#8, 0#8, 0#8, 0#8] false
    let r' := Request.validate [] false
    ((busyWith 1 .stage r).activity = .busy (freshTxn .stage r) ∧ validateCore 1 r.raw = .ok) ∧
    (busyWith 1 .stage r').activity = .busy (freshTxn .stage r') ∧ validateCore 1 r'.raw ≠ .ok := by decide
theorem witness_ValsRaisesTheVerdict :
    let r := Request.validate [0x11#8, 0#8, 0#8, 0#8, 0#8, 0#8] true
    (busyWith 1 .stage r).activity = .busy (freshTxn .stage r) ∧ validateCore 1 r.raw = .silentLong := by decide
theorem witness_OtherFrameLengthsAreIllFormed :
    (Packet.normal [0#8, 0#8, 0#8] [0#16, 0#16] []).wf 2 = true ∧ 2 < 3 ∧ 1 < 2 ∧
    (Packet.silent [0#8, 0#8, 0#8] []).wf 2 = true := by decide

theorem witness_DecReportsItsError :
    (busyWith 1 .stage (.decodePacket [])).activity = .busy (freshTxn .stage (.decodePacket [])) ∧
    validateCore 1 (freshTxn .stage (.decodePacket [])).req.raw ≠ .ok := by decide
theorem witness_DecReconstructsThePacket :
    let p := Packet.normal [0x41#8, 0x00#8, 0x00#8] [0x8000#16] []
    (busyWith 1 .stage (.decodePacket p.encode)).activity = .busy (freshTxn .stage (.decodePacket p.encode)) ∧
      p.wf 1 = true ∧ (Packet.silent [0#8, 0#8, 0#8] [0xFF#8]).wf 1 = true := ⟨rfl, by decide, by decide⟩
theorem witness_DecSucceedsIffValidates :
    (busyWith 1 .stage (.decodePacket [0x10#8])).activity = .busy (freshTxn .stage (.decodePacket [0x10#8])) := rfl
/-- A sample, a name and an extension at the limits of the property, and the packet DEC is given. -/
theorem witness_EncodeDecodeRoundTrip :
    let r₁ := Request.encodePacket [0xBF800000#32] [0x00#8, 0x00#8, 0x7F#8] []
    let r₂ := Request.decodePacket [0x10#8, 0x00#8, 0x00#8, 0x7F#8, 0x00#8, 0x01#8, 0x80#8]
    let s₁ := busyWith 1 .stage r₁
    s₁.activity = .busy (freshTxn .stage r₁) ∧ (busyWith 1 .serial r₂).activity = .busy (freshTxn .serial r₂) ∧
      encodable 1 r₁ ∧ (∀ w ∈ r₁.audio, inRange w) ∧ r₁.lane.getLast? ≠ some 0x00#8 ∧
      exec .enc s₁ = .next (s₁.completed { status := 0x0001#16, results := .packet r₂.raw }) := by
  refine ⟨rfl, rfl, ⟨by decide, by decide, by decide, by decide⟩, fun w hw => ?_, by decide, eq_next (by decide)⟩
  simp only [Request.encodePacket, List.mem_singleton] at hw
  subst hw
  exact witness_RoundTripContract
/-- A name that ends in the code `0x00`, and the packet DEC is given. -/
theorem witness_NamesComeBackStripped :
    let r₁ := Request.encodePacket [0#32] [0x41#8, 0x00#8] []
    let r₂ := Request.decodePacket [0x11#8, 0x41#8, 0x00#8, 0x00#8, 0x00#8]
    let s₁ := busyWith 1 .stage r₁
    s₁.activity = .busy (freshTxn .stage r₁) ∧ (busyWith 1 .stage r₂).activity = .busy (freshTxn .stage r₂) ∧
      encodable 1 r₁ ∧ exec .enc s₁ = .next (s₁.completed { status := 0x0001#16, results := .packet r₂.raw }) := by
  refine ⟨rfl, rfl, ⟨by decide, by decide, by decide, by decide⟩, eq_next (by decide)⟩

/-! ## A placed word runs as the first instruction after reset -/

theorem test_placed_command_runs : given (State.reset.withFetchWord 8 0x02) =
    some { status := 0x0003#16, results := .nothing } := by decide
theorem test_placed_illegal_command_runs : given (State.reset.withFetchWord 8 0x08) =
    some { status := 0x7F0C#16, results := .nothing } := by decide

end Sys2Proof.Tests
end

/-! PROOFS on the command byte. The command decoder gives command rows only, each for its own byte, so a byte outside
the table of R60 is rejected; a BUSY block answers it with the command error of R61. -/

namespace Sys2Proof.Proofs

open Sys2Proof.Machine Sys2Proof.Laws

/-! ## The command decoder -/

/-- A byte whose reserved bits are zero is made of its two other fields (R59). -/
theorem cmdByte_of_fields {b : Byte} (h : cmdReserved b = 0#3) : cmdByte (cmdStrict b) (cmdOp b) = b := by
  have hsplit : cmdReserved b ++ BitVec.ofBool (cmdStrict b) ++ cmdOp b = b := by
    apply BitVec.eq_of_getLsbD_eq
    intro k hk
    rw [BitVec.getLsbD_append, BitVec.getLsbD_append]
    interval_cases k <;> simp [cmdReserved, cmdStrict, cmdOp]
  rwa [h] at hsplit

/-- Fields that name an operation are the fields of that operation's command byte. -/
theorem encode_of_opInstr {op : BitVec 4} {strict : Bool} {i : Instr} (h : opInstr op strict = some i) :
    i.space = .command ∧ encode i = cmdByte strict op := by
  unfold opInstr at h
  split_ifs at h with hstrict
  all_goals
    obtain rfl := Option.some.inj h
    subst op
    simp [Instr.space, encode, hstrict]

/-- A byte that decodes to a command is that command's byte (R59, R60). -/
theorem encode_of_decodeCmd {b : Byte} {i : Instr} (h : decodeCmd b = .ok i) :
    i.space = .command ∧ encode i = b := by
  unfold decodeCmd at h
  split at h
  next hreserved =>
    split at h
    next j hop =>
      obtain rfl := Except.ok.inj h
      obtain ⟨hspace, hcode⟩ := encode_of_opInstr hop
      exact ⟨hspace, hcode.trans (cmdByte_of_fields hreserved)⟩
    next => cases h
  next => cases h

/-- The nine legal values of `CMD` (R60), in ascending order. -/
def legalCommands : List Byte := [0x00#8, 0x01#8, 0x02#8, 0x03#8, 0x04#8, 0x05#8, 0x06#8, 0x07#8, 0x16#8]

theorem encode_mem_legalCommands {i : Instr} (h : i.space = .command) : encode i ∈ legalCommands := by
  cases i with
  | pktN => cases h
  | pktS => cases h
  | _ => decide

/-- A byte that is no legal command decodes to no row. -/
theorem decodeCmd_illegal {b : Byte} (h : b ∉ legalCommands) : ∃ e, decodeCmd b = .error e := by
  cases hd : decodeCmd b with
  | error e => exact ⟨e, rfl⟩
  | ok i =>
    obtain ⟨hspace, rfl⟩ := encode_of_decodeCmd hd
    exact absurd (encode_mem_legalCommands hspace) h

/-! ## The step on an illegal command -/

/-- A BUSY block whose `CMD` the decoder rejects raises `E_CMD_ILLEGAL`, before it reads anything else (R61). -/
theorem advance_of_decodeCmd_error {s : State} {t : Txn} {e : DecodeError} (ha : s.activity = .busy t)
    (hd : decodeCmd t.req.cmd = .error e) : advance s = .next (raise .cmdIllegal s) := by
  simp only [advance, ha, hd]

/-- The response of `raise CmdError(E_CMD_ILLEGAL)`: `ERR = 0x7F`, `KIND` of a command error, `OK = 0` (R61, R62). -/
theorem errorResponse_cmdIllegal : errorResponse .cmdIllegal = { status := 0x7F0C#16, results := .nothing } := by
  decide

/-- Settles O7: the byte decodes to no row, so the step raises the command error. -/
theorem illegalCommandAnswersCommandError : Obligations.IllegalCommandAnswersCommandError := by
  intro s t ha hcmd hinput
  obtain ⟨e, hd⟩ := decodeCmd_illegal hcmd
  have hadvance : advance (takeInput s) = .next (raise .cmdIllegal (takeInput s)) :=
    advance_of_decodeCmd_error ((takeInput_activity s).trans ha) hd
  rw [step_busy ha hinput, hadvance, raise_eq_completed, errorResponse_cmdIllegal]

end Sys2Proof.Proofs

/-! PROOFS on the Quantizer (40_quantizer.md). The machine computes with quotients of naturals; each of its roundings is
shown to be the rule's rounding over rationals, so QUANT and DEQUANT answer what R85 and R90 say. The bit-level form
(R86) and the closed form (R91) are then compared with them, and the round-trip contract (R93) adds up the two errors. -/

namespace Sys2Proof.Proofs

open Sys2Proof.Machine Sys2Proof.Laws

/-! ## Rounding to nearest even (R83) -/

/-- What `rne_int` promises of its result: no integer lies nearer, and a result half way off is even (R83). -/
def NearestEven (r : ℚ) (n : ℤ) : Prop := |r - n| < 1 / 2 ∨ (|r - n| = 1 / 2 ∧ n % 2 = 0)

theorem NearestEven.dist_le {r : ℚ} {n : ℤ} (h : NearestEven r n) : |r - n| ≤ 1 / 2 :=
  h.elim le_of_lt fun ⟨heq, _⟩ => heq.le

theorem NearestEven.neg {r : ℚ} {n : ℤ} (h : NearestEven r n) : NearestEven (-r) (-n) := by
  have hdist : |-r - ((-n : ℤ) : ℚ)| = |r - n| := by
    rw [← abs_neg]
    push_cast
    ring_nf
  rw [NearestEven, hdist]
  exact h.imp_right fun ⟨heq, heven⟩ => ⟨heq, by omega⟩

theorem NearestEven.le {r : ℚ} {n n' : ℤ} (h : NearestEven r n) (h' : NearestEven r n') : n ≤ n' := by
  by_contra hlt
  have hstep : (n' : ℚ) + 1 ≤ n := by exact_mod_cast not_le.mp hlt
  have hlow := (abs_le.mp h.dist_le).1
  have hhigh := (abs_le.mp h'.dist_le).2
  have hn : n = n' + 1 := by exact_mod_cast (by linarith : (n : ℚ) = n' + 1)
  -- Neighbours at that distance are both half way off, so both are even.
  have heven : n % 2 = 0 := (h.resolve_left fun hd => by linarith [(abs_lt.mp hd).1]).2
  have heven' : n' % 2 = 0 := (h'.resolve_left fun hd => by linarith [(abs_lt.mp hd).2]).2
  omega

theorem NearestEven.unique {r : ℚ} {n n' : ℤ} (h : NearestEven r n) (h' : NearestEven r n') : n = n' :=
  le_antisymm (h.le h') (h'.le h)

theorem nearestEven_rneInt (r : ℚ) : NearestEven r (rneInt r) := by
  have hfl := Int.floor_le r
  have hlt := Int.lt_floor_add_one r
  simp only [rneInt]
  split_ifs with hlow hhigh heven
  · exact .inl (abs_lt.mpr ⟨by linarith, hlow⟩)
  · exact .inl (abs_lt.mpr ⟨by push_cast; linarith, by push_cast; linarith⟩)
  · exact .inr ⟨by rw [abs_of_nonneg] <;> linarith, heven⟩
  · refine .inr ⟨?_, by omega⟩
    push_cast
    rw [abs_of_neg] <;> linarith

theorem rneInt_eq_of_nearestEven {r : ℚ} {n : ℤ} (h : NearestEven r n) : rneInt r = n :=
  (nearestEven_rneInt r).unique h

theorem rneInt_neg (r : ℚ) : rneInt (-r) = -rneInt r :=
  rneInt_eq_of_nearestEven (nearestEven_rneInt r).neg

theorem rneInt_intCast (n : ℤ) : rneInt (n : ℚ) = n := rneInt_eq_of_nearestEven (.inl (by norm_num))

theorem abs_sub_rneInt_le (r : ℚ) : |r - rneInt r| ≤ 1 / 2 := (nearestEven_rneInt r).dist_le

/-- Away from a tie the rounding error stays below one half. -/
theorem abs_sub_rneInt_lt {r : ℚ} (h : Int.fract r ≠ 1 / 2) : |r - rneInt r| < 1 / 2 := by
  refine lt_of_le_of_ne (abs_sub_rneInt_le r) fun heq => h ?_
  rw [Int.fract_eq_iff]
  rcases (abs_eq (by norm_num)).mp heq with htie | htie
  · exact ⟨by norm_num, by norm_num, rneInt r, by linarith⟩
  · exact ⟨by norm_num, by norm_num, rneInt r - 1, by push_cast; linarith⟩

/-- The machine's integer rounding is the rule's rounding of the fraction. -/
theorem rneInt_natCast_div (num den : ℕ) (hden : 0 < den) : rneInt ((num : ℚ) / den) = rneDiv num den := by
  have hfloor : ⌊(num : ℚ) / den⌋ = ((num / den : ℕ) : ℤ) := by
    rw [Int.natCast_div, ← Rat.floor_intCast_div_natCast, Int.cast_natCast]
  have hfract : (num : ℚ) / den - ((num / den : ℕ) : ℤ) = ((num % den : ℕ) : ℚ) / den := by
    rw [← hfloor]
    exact Int.fract_div_natCast_eq_div_natCast_mod
  have hpos : (0 : ℚ) < den := by exact_mod_cast hden
  have hlow : ((num % den : ℕ) : ℚ) / den < 1 / 2 ↔ 2 * (num % den) < den := by
    rw [div_lt_div_iff₀ hpos two_pos, ← Nat.cast_lt (α := ℚ)]
    push_cast
    ring_nf
  have hhigh : 1 / 2 < ((num % den : ℕ) : ℚ) / den ↔ den < 2 * (num % den) := by
    rw [div_lt_div_iff₀ two_pos hpos, ← Nat.cast_lt (α := ℚ)]
    push_cast
    ring_nf
  simp only [rneInt, rneDiv, hfloor, hfract, hlow, hhigh]
  split_ifs <;> omega

/-! ## The machine's rounded division -/

theorem rneDiv_eq_zero {num den : ℕ} (h : 2 * num < den) : rneDiv num den = 0 := by
  have hnum : num < den := by omega
  simp [rneDiv, Nat.div_eq_of_lt hnum, Nat.mod_eq_of_lt hnum, h]

theorem div_le_rneDiv (num den : ℕ) : num / den ≤ rneDiv num den := by
  simp only [rneDiv]
  split_ifs <;> omega

theorem rneDiv_le_div_succ (num den : ℕ) : rneDiv num den ≤ num / den + 1 := by
  simp only [rneDiv]
  split_ifs <;> omega

theorem rneDiv_mul_right (num den : ℕ) {c : ℕ} (hc : 0 < c) : rneDiv (num * c) (den * c) = rneDiv num den := by
  have htwice : 2 * (num * c % (den * c)) = 2 * (num % den) * c := by rw [Nat.mul_mod_mul_right, Nat.mul_assoc]
  simp only [rneDiv, Nat.mul_div_mul_right num den hc, htwice, Nat.mul_lt_mul_right hc]

/-- Dividing by a power of two rounds by the bits shifted out, against half of it (R86). -/
theorem rneDiv_two_pow (num : ℕ) {k : ℕ} (hk : 0 < k) :
    rneDiv num (2 ^ k) =
      if 2 ^ (k - 1) < num % 2 ^ k ∨ (num % 2 ^ k = 2 ^ (k - 1) ∧ (num >>> k) % 2 = 1)
      then num >>> k + 1 else num >>> k := by
  have hhalf : 2 ^ k = 2 * 2 ^ (k - 1) := by rw [← pow_succ', Nat.sub_add_cancel hk]
  simp only [rneDiv, Nat.shiftRight_eq_div_pow]
  generalize num / 2 ^ k = n
  generalize num % 2 ^ k = r
  rw [hhalf]
  split_ifs <;> omega

/-! ## The value of a pattern (R81) -/

/-- Both cases of `value32` at once: the signed significand, scaled. -/
theorem value32_eq (w : Sample) :
    value32 w = f32SignQ w * f32Significand w * (2 : ℚ) ^ ((f32Scale w : ℤ) - 150) := by
  by_cases h : f32Exponent w = 0
  · norm_num [value32, f32Significand, f32Scale, h]
  · norm_num [value32, f32Significand, f32Scale, h]

theorem f32Fraction_lt (w : Sample) : f32Fraction w < 2 ^ 23 := (w.extractLsb' 0 23).isLt

/-- The machine's fraction is the magnitude of the rule's exact product (R85). -/
theorem value32_mul_scale (w : Sample) :
    value32 w * 32767 =
      f32SignQ w * (((f32Significand w * Config.scale * 2 ^ f32Scale w : ℕ) : ℚ) / (2 ^ 150 : ℕ)) := by
  rw [value32_eq, zpow_sub₀ two_ne_zero, zpow_natCast, show (2 : ℚ) ^ (150 : ℤ) = 2 ^ 150 from rfl]
  push_cast
  ring

/-! ## QUANT -/

/-- Rounding a signed magnitude is rounding the magnitude. -/
theorem rneInt_sign_mul (w : Sample) (r : ℚ) :
    rneInt (f32SignQ w * r) = if f32Negative w then -rneInt r else rneInt r := by
  unfold f32SignQ
  split
  · rw [neg_one_mul, rneInt_neg]
  · rw [one_mul]

/-- The machine's rounded product is the rule's (R85). -/
theorem signed_rneDiv_eq_rneInt (w : Sample) :
    signed (f32Negative w) (rneDiv (f32Significand w * Config.scale * 2 ^ f32Scale w) (2 ^ 150)) =
      rneInt (value32 w * 32767) := by
  rw [value32_mul_scale, rneInt_sign_mul, rneInt_natCast_div _ _ (by positivity), signed]

theorem quantize_eq_quantizeQ (w : Sample) : quantize w = quantizeQ w := by
  unfold quantize quantizeQ
  cases class32 w with
  | nan => rfl
  | inf negative => rfl
  | finite => simp only [signed_rneDiv_eq_rneInt]

theorem exec_quant {s : State} {t : Txn} (h : s.activity = .busy t) :
    exec .quant s =
      .next (s.completed { status := 0x0001#16, results := .quantized (quantize t.req.sIn) }) :=
  withTxn_busy h _

/-- Settles O22: the machine's integer quotient is the rule's rounded product. -/
theorem quantGivesTheRoundedProduct : Obligations.QuantGivesTheRoundedProduct := by
  refine ⟨CodeRoundTrip.quant, fun s t h => ?_⟩
  rw [exec_quant h, quantize_eq_quantizeQ]

/-! ## The bit-level form of `quantize` (R86) -/

theorem class32_eq_finite {w : Sample} (h : f32Exponent w ≠ 255) : class32 w = .finite := by simp [class32, h]

theorem quantize_of_finite {w : Sample} (h : class32 w = .finite) :
    quantize w = BitVec.ofInt 16 (sat16 (signed (f32Negative w)
      (rneDiv (f32Significand w * Config.scale * 2 ^ f32Scale w) (2 ^ 150)))) := by
  simp only [quantize, h]

/-- A magnitude of 32768 stands for every larger one (R86). -/
theorem sat16_signed_of_le (negative : Bool) {m : ℕ} (h : 32768 ≤ m) :
    sat16 (signed negative m) = sat16 (signed negative 32768) := by
  cases negative <;> simp [sat16, signed] <;> omega

/-- A zero or subnormal pattern: the product is below 1/2. -/
theorem rneDiv_product_of_subnormal {w : Sample} (h : f32Exponent w = 0) :
    rneDiv (f32Significand w * Config.scale * 2 ^ f32Scale w) (2 ^ 150) = 0 := by
  have hF := f32Fraction_lt w
  apply rneDiv_eq_zero
  simp only [f32Significand, f32Scale, h, if_true, Config.scale]
  omega

/-- A pattern of exponent at least 150: the product is an integer of at least 38 bits. -/
theorem le_rneDiv_product {w : Sample} (h : 150 ≤ f32Exponent w) :
    32768 ≤ rneDiv (f32Significand w * Config.scale * 2 ^ f32Scale w) (2 ^ 150) := by
  refine le_trans ((Nat.le_div_iff_mul_le (by positivity)).mpr ?_) (div_le_rneDiv _ _)
  have hE : f32Exponent w ≠ 0 := by omega
  have hbig : 32768 ≤ f32Significand w * Config.scale := by
    simp only [f32Significand, hE, if_false, Config.scale]
    omega
  have hpow : 2 ^ 150 ≤ 2 ^ f32Scale w := by
    rw [f32Scale, if_neg hE]
    exact Nat.pow_le_pow_right two_pos h
  exact Nat.mul_le_mul hbig hpow

/-- A normal pattern of exponent below 110: the product is below 1/4. -/
theorem rneDiv_product_of_small {w : Sample} (h0 : f32Exponent w ≠ 0) (h : f32Exponent w < 110) :
    rneDiv (f32Significand w * Config.scale * 2 ^ f32Scale w) (2 ^ 150) = 0 := by
  have hF := f32Fraction_lt w
  have hbig : f32Significand w * Config.scale < 2 ^ 39 := by
    simp only [f32Significand, h0, if_false, Config.scale]
    omega
  have hpow : 2 ^ f32Scale w ≤ 2 ^ 109 := by
    rw [f32Scale, if_neg h0]
    exact Nat.pow_le_pow_right two_pos (by omega)
  have hnum := Nat.mul_lt_mul_of_lt_of_le hbig hpow (by positivity)
  exact rneDiv_eq_zero (by omega)

/-- In between, the product is the 39-bit product shifted right. -/
theorem rneDiv_product_of_middle {w : Sample} (h0 : f32Exponent w ≠ 0) (h : f32Exponent w < 150) :
    rneDiv (f32Significand w * Config.scale * 2 ^ f32Scale w) (2 ^ 150) =
      rneDiv (32767 * (2 ^ 23 + f32Fraction w)) (2 ^ (150 - f32Exponent w)) := by
  have hden : 2 ^ 150 = 2 ^ (150 - f32Exponent w) * 2 ^ f32Exponent w := by
    rw [← pow_add, Nat.sub_add_cancel h.le]
  rw [f32Significand, f32Scale, if_neg h0, if_neg h0, hden, rneDiv_mul_right _ _ (by positivity), Config.scale,
    Nat.mul_comm 32767]

/-! The branches of the bit-level form, in the words of the machine. -/

theorem quantizeBits_of_exponent_255 {w : Sample} (h : f32Exponent w = 255) : quantizeBits w = quantize w := by
  by_cases hF : f32Fraction w = 0
  · cases hneg : f32Negative w <;> simp [quantizeBits, quantize, class32, h, hF, hneg]
  · simp [quantizeBits, quantize, class32, h, hF]

theorem quantizeBits_of_exponent_ge {w : Sample} (hfin : f32Exponent w ≠ 255) (h : 150 ≤ f32Exponent w) :
    quantizeBits w = BitVec.ofInt 16 (sat16 (signed (f32Negative w) 32768)) := by
  have h0 : f32Exponent w ≠ 0 := by omega
  have hk : (150 : ℤ) - f32Exponent w ≤ 0 := by omega
  simp only [quantizeBits, hfin, h0, hk, if_false, if_true, signed]

theorem quantizeBits_of_exponent_lt {w : Sample} (h0 : f32Exponent w ≠ 0) (h : f32Exponent w < 110) :
    quantizeBits w = BitVec.ofInt 16 (sat16 (signed (f32Negative w) 0)) := by
  have hfin : f32Exponent w ≠ 255 := by omega
  have hk : ¬ (150 : ℤ) - f32Exponent w ≤ 0 := by omega
  have hk40 : 40 < (150 : ℤ) - f32Exponent w := by omega
  simp only [quantizeBits, hfin, h0, hk, hk40, if_false, if_true, signed]

theorem quantizeBits_of_exponent_mid {w : Sample} (h : 110 ≤ f32Exponent w) (h' : f32Exponent w < 150) :
    quantizeBits w = BitVec.ofInt 16 (sat16 (signed (f32Negative w)
      (rneDiv (32767 * (2 ^ 23 + f32Fraction w)) (2 ^ (150 - f32Exponent w))))) := by
  have h0 : f32Exponent w ≠ 0 := by omega
  have hfin : f32Exponent w ≠ 255 := by omega
  have hk : ¬ (150 : ℤ) - f32Exponent w ≤ 0 := by omega
  have hk40 : ¬ 40 < (150 : ℤ) - f32Exponent w := by omega
  have hnat : ((150 : ℤ) - f32Exponent w).toNat = 150 - f32Exponent w := by omega
  simp only [quantizeBits, hfin, h0, hk, hk40, hnat, if_false, signed, rneDiv_two_pow _ (Nat.sub_pos_of_lt h')]

/-- The bit-level form is the machine's, by the exponent's range (R86). -/
theorem quantizeBits_eq_quantize (w : Sample) : quantizeBits w = quantize w := by
  by_cases h255 : f32Exponent w = 255
  · exact quantizeBits_of_exponent_255 h255
  rw [quantize_of_finite (class32_eq_finite h255)]
  by_cases h0 : f32Exponent w = 0
  · rw [rneDiv_product_of_subnormal h0]
    cases f32Negative w <;> simp [quantizeBits, h0, signed, sat16]
  rcases lt_or_ge (f32Exponent w) 110 with hlow | hlow
  · rw [quantizeBits_of_exponent_lt h0 hlow, rneDiv_product_of_small h0 hlow]
  rcases lt_or_ge (f32Exponent w) 150 with hmid | hhigh
  · rw [quantizeBits_of_exponent_mid hlow hmid, rneDiv_product_of_middle h0 hmid]
  · rw [quantizeBits_of_exponent_ge h255 hhigh, sat16_signed_of_le _ (le_rneDiv_product hhigh)]

/-- Settles O23: the bit-level form is the machine's `quantize`, which is the rule's. -/
theorem quantizeHasItsBitLevelForm : Obligations.QuantizeHasItsBitLevelForm := fun w =>
  ⟨quantizeBits_eq_quantize w, (quantizeBits_eq_quantize w).trans (quantize_eq_quantizeQ w)⟩

/-! ## Rounding a quotient to binary32 (R82) -/

/-- A power of two of any integer exponent as a quotient of natural powers. -/
theorem two_zpow_eq_div (e : ℤ) : (2 : ℚ) ^ e = ((2 ^ e.toNat : ℕ) : ℚ) / (2 ^ (-e).toNat : ℕ) := by
  conv_lhs => rw [← Int.toNat_sub_toNat_neg e]
  rw [zpow_sub₀ two_ne_zero]
  push_cast
  simp only [zpow_natCast]

theorem int_log_two_eq_iff {r : ℚ} (hr : 0 < r) (e : ℤ) :
    Int.log 2 r = e ↔ (2 : ℚ) ^ e ≤ r ∧ r < (2 : ℚ) ^ (e + 1) := by
  have hle := Int.zpow_le_iff_le_log (b := 2) one_lt_two (x := e) hr
  have hlt := Int.lt_zpow_iff_log_lt (b := 2) one_lt_two (x := e + 1) hr
  push_cast at hle hlt
  rw [hle, hlt]
  omega

/-- The machine's comparison decides whether a power of two is at most a fraction. -/
theorem two_zpow_le_div_iff (e : ℤ) (num : ℕ) {den : ℕ} (hden : 0 < den) :
    (2 : ℚ) ^ e ≤ (num : ℚ) / den ↔ den * 2 ^ e.toNat ≤ num * 2 ^ (-e).toNat := by
  rw [two_zpow_eq_div, div_le_div_iff₀ (by positivity) (by exact_mod_cast hden), mul_comm den]
  exact_mod_cast Iff.rfl

/-- The quotient of two numbers has the difference of their bit counts for exponent, or one less. -/
theorem div_bounds_log2 {num den : ℕ} (hnum : 0 < num) (hden : 0 < den) :
    (2 : ℚ) ^ ((Nat.log2 num : ℤ) - Nat.log2 den - 1) ≤ (num : ℚ) / den ∧
      (num : ℚ) / den < (2 : ℚ) ^ ((Nat.log2 num : ℤ) - Nat.log2 den + 1) := by
  have hn : (2 : ℚ) ^ Nat.log2 num ≤ num := by exact_mod_cast Nat.log2_self_le hnum.ne'
  have hn' : (num : ℚ) < 2 ^ (Nat.log2 num + 1) := by exact_mod_cast Nat.lt_log2_self
  have hd : (2 : ℚ) ^ Nat.log2 den ≤ den := by exact_mod_cast Nat.log2_self_le hden.ne'
  have hd' : (den : ℚ) < 2 ^ (Nat.log2 den + 1) := by exact_mod_cast Nat.lt_log2_self
  have hpos : (0 : ℚ) < den := by exact_mod_cast hden
  constructor
  · rw [sub_sub, zpow_sub₀ two_ne_zero]
    exact div_le_div₀ (by positivity) (by exact_mod_cast hn) hpos (by exact_mod_cast hd'.le)
  · rw [sub_add_eq_add_sub, zpow_sub₀ two_ne_zero]
    exact div_lt_div₀ (by exact_mod_cast hn') (by exact_mod_cast hd) (by positivity) (by positivity)

theorem floorLog2_eq_log {num den : ℕ} (hnum : 0 < num) (hden : 0 < den) :
    floorLog2 num den = Int.log 2 ((num : ℚ) / den) := by
  obtain ⟨hlow, hhigh⟩ := div_bounds_log2 hnum hden
  have hpos : (0 : ℚ) < (num : ℚ) / den := by positivity
  symm
  simp only [floorLog2]
  split_ifs with hle
  · exact (int_log_two_eq_iff hpos _).mpr ⟨(two_zpow_le_div_iff _ _ hden).mpr hle, hhigh⟩
  · refine (int_log_two_eq_iff hpos _).mpr ⟨hlow, ?_⟩
    rw [sub_add_cancel]
    exact not_le.mp fun h => hle ((two_zpow_le_div_iff _ _ hden).mp h)

/-- The significand before rounding, as the machine's fraction of naturals. -/
theorem rneInt_scaled_div (num : ℕ) {den : ℕ} (hden : 0 < den) (e : ℤ) :
    rneInt ((num : ℚ) / den * (2 : ℚ) ^ (23 - e)) =
      rneDiv (num * 2 ^ (23 - e).toNat) (den * 2 ^ (e - 23).toNat) := by
  rw [two_zpow_eq_div, neg_sub, div_mul_div_comm, ← Nat.cast_mul, ← Nat.cast_mul,
    rneInt_natCast_div _ _ (by positivity)]

/-- `rn32` of a signed fraction, in the words of its magnitude. -/
theorem rn32_intCast_div {z : ℤ} {den : ℕ} (hz : z ≠ 0) (hden : 0 < den) {e : ℤ}
    (he : Int.log 2 ((z.natAbs : ℚ) / den) = e) :
    rn32 ((z : ℚ) / den) =
      if rneInt ((z.natAbs : ℚ) / den * (2 : ℚ) ^ (23 - e)) = 2 ^ 24 then packF32 (decide (z < 0)) (e + 1) (2 ^ 23)
      else packF32 (decide (z < 0)) e (rneInt ((z.natAbs : ℚ) / den * (2 : ℚ) ^ (23 - e))).toNat := by
  have hpos : (0 : ℚ) < den := by exact_mod_cast hden
  have habs : |(z : ℚ) / den| = (z.natAbs : ℚ) / den := by
    rw [abs_div, abs_of_pos hpos, Nat.cast_natAbs, Int.cast_abs]
  have hsign : ((z : ℚ) / den < 0) ↔ z < 0 := by rw [div_lt_iff₀ hpos, zero_mul, Int.cast_lt_zero]
  have hne : (z : ℚ) / den ≠ 0 := div_ne_zero (Int.cast_ne_zero.mpr hz) hpos.ne'
  simp only [rn32, hne, if_false, habs, hsign, he]

/-- The machine's rounding of a signed fraction is the rule's (R82). -/
theorem rn32Div_eq_rn32 (z : ℤ) {den : ℕ} (hden : 0 < den) :
    rn32Div (decide (z < 0)) z.natAbs den = rn32 ((z : ℚ) / den) := by
  by_cases hz : z = 0
  · simp [rn32Div, rn32, hz]
  have hnat : z.natAbs ≠ 0 := Int.natAbs_ne_zero.mpr hz
  have htop (n : ℕ) : ((n : ℤ) = 2 ^ 24) ↔ n = 2 ^ 24 := by omega
  rw [rn32_intCast_div hz hden (floorLog2_eq_log (Nat.pos_of_ne_zero hnat) hden).symm, rneInt_scaled_div _ hden]
  simp only [rn32Div, hnat, if_false, htop, Int.toNat_natCast]

/-! ## DEQUANT -/

theorem dequantize_eq_rn32 (q : Quantized) : dequantize q = rn32 ((q.toInt : ℚ) / 32767) :=
  rn32Div_eq_rn32 q.toInt (by decide)

theorem exec_dequant {s : State} {t : Txn} (h : s.activity = .busy t) :
    exec .dequant s =
      .next (s.completed { status := 0x0001#16, results := .sample (dequantize t.req.qIn) }) :=
  withTxn_busy h _

/-- Settles O27: the machine's rounded fraction is the rule's `rn32` of the quotient. -/
theorem dequantGivesTheRoundedQuotient : Obligations.DequantGivesTheRoundedQuotient := by
  refine ⟨CodeRoundTrip.dequant, fun s t h => ?_⟩
  rw [exec_dequant h, dequantize_eq_rn32]

/-! ## The closed form of `dequantize` (R91) -/

theorem natAbs_toInt_le (q : Quantized) : q.toInt.natAbs ≤ 32768 := by
  have hlow := BitVec.le_toInt q
  have hhigh := BitVec.toInt_lt (x := q)
  omega

theorem natAbs_toInt_pos {q : Quantized} (h : q ≠ 0#16) : 0 < q.toInt.natAbs :=
  Int.natAbs_pos.mpr fun hz => h (BitVec.eq_of_toInt_eq hz)

/-- The range of the closed form's exponent (R91). -/
theorem dequantizeExponent_range {a : ℕ} (hpos : 0 < a) (hle : a ≤ 32768) :
    (a = 32767 ∨ a = 32768) ∧ dequantizeExponent a = 0 ∨
      a < 32767 ∧ -15 ≤ dequantizeExponent a ∧ dequantizeExponent a ≤ -1 := by
  by_cases h : a = 32767 ∨ a = 32768
  · exact .inl ⟨h, if_pos h⟩
  · have hlog : Nat.log2 a < 15 := (Nat.log2_lt hpos.ne').mpr (by omega)
    rw [dequantizeExponent, if_neg h, bitLength]
    exact .inr ⟨by omega, by omega, by omega⟩

theorem dequantizeExponent_nonpos {a : ℕ} (hpos : 0 < a) (hle : a ≤ 32768) : dequantizeExponent a ≤ 0 := by
  rcases dequantizeExponent_range hpos hle with ⟨_, h⟩ | ⟨_, _, h⟩ <;> omega

/-- The magnitude shifted left by the closed form's exponent. -/
def normalizedMagnitude (a : ℕ) : ℕ := a * 2 ^ (-dequantizeExponent a).toNat

/-- The shifted magnitude lies between 32767 and twice that, so that its quotient lies in `[1, 2)`. -/
theorem normalizedMagnitude_range {a : ℕ} (hpos : 0 < a) (hle : a ≤ 32768) :
    32767 ≤ normalizedMagnitude a ∧ normalizedMagnitude a < 2 * 32767 := by
  unfold normalizedMagnitude dequantizeExponent bitLength
  split_ifs with h
  · obtain rfl | rfl := h <;> decide
  · have hlow := Nat.log2_self_le hpos.ne'
    have hhigh := Nat.lt_log2_self (n := a)
    have hlog : Nat.log2 a < 15 := (Nat.log2_lt hpos.ne').mpr (by omega)
    generalize Nat.log2 a = l at hlow hhigh hlog
    -- One linear fact for each of the fifteen bit counts.
    interval_cases l <;> simp <;> omega

theorem quotient_eq_normalized {a : ℕ} (hpos : 0 < a) (hle : a ≤ 32768) :
    (a : ℚ) / 32767 = (normalizedMagnitude a : ℚ) / 32767 * (2 : ℚ) ^ dequantizeExponent a := by
  have he := dequantizeExponent_nonpos hpos hle
  rw [two_zpow_eq_div, Int.toNat_of_nonpos he, normalizedMagnitude]
  push_cast
  field_simp

/-- The closed form's exponent is `floor(log2)` of the quotient (R91). -/
theorem int_log_quotient {a : ℕ} (hpos : 0 < a) (hle : a ≤ 32768) :
    Int.log 2 ((a : ℚ) / 32767) = dequantizeExponent a := by
  obtain ⟨hlow, hhigh⟩ := normalizedMagnitude_range hpos hle
  have hone : (1 : ℚ) ≤ normalizedMagnitude a / 32767 := (one_le_div (by norm_num)).mpr (by exact_mod_cast hlow)
  have htwo : (normalizedMagnitude a : ℚ) / 32767 < 2 := (div_lt_iff₀ (by norm_num)).mpr (by exact_mod_cast hhigh)
  have hpow : (0 : ℚ) < (2 : ℚ) ^ dequantizeExponent a := by positivity
  rw [int_log_two_eq_iff (by positivity), quotient_eq_normalized hpos hle, zpow_add_one₀ two_ne_zero, mul_comm]
  exact ⟨le_mul_of_one_le_right hpow.le hone, mul_lt_mul_of_pos_left htwo hpow⟩

/-- The significand of the closed form before it is rounded (R91). -/
def scaledQuotient (a : ℕ) : ℚ := (a : ℚ) * (2 : ℚ) ^ (23 - dequantizeExponent a) / 32767

theorem scaledQuotient_eq {a : ℕ} (hpos : 0 < a) (hle : a ≤ 32768) :
    scaledQuotient a = ((normalizedMagnitude a * 2 ^ 23 : ℕ) : ℚ) / (32767 : ℕ) := by
  rw [scaledQuotient, mul_div_right_comm, quotient_eq_normalized hpos hle, mul_assoc, ← zpow_add₀ two_ne_zero,
    add_sub_cancel]
  push_cast
  rw [div_mul_eq_mul_div]

theorem rneInt_scaledQuotient_range {a : ℕ} (hpos : 0 < a) (hle : a ≤ 32768) :
    2 ^ 23 ≤ rneInt (scaledQuotient a) ∧ rneInt (scaledQuotient a) < 2 ^ 24 := by
  obtain ⟨hlow, hhigh⟩ := normalizedMagnitude_range hpos hle
  rw [scaledQuotient_eq hpos hle, rneInt_natCast_div _ _ (by decide)]
  have hge := div_le_rneDiv (normalizedMagnitude a * 2 ^ 23) 32767
  have hle' := rneDiv_le_div_succ (normalizedMagnitude a * 2 ^ 23) 32767
  omega

/-- Twice the remainder by 32767 is even and 32767 is odd: no tie (R91, R92). -/
theorem fract_scaledQuotient_ne_half {a : ℕ} (hpos : 0 < a) (hle : a ≤ 32768) :
    Int.fract (scaledQuotient a) ≠ 1 / 2 := by
  rw [scaledQuotient_eq hpos hle, Int.fract_div_natCast_eq_div_natCast_mod, Ne,
    div_eq_div_iff (by norm_num) two_ne_zero]
  norm_cast
  omega

/-- The closed form is `rn32` of the quotient: its exponent is the quotient's and its significand does not overflow
(R91). -/
theorem rn32_quotient_eq_dequantizeClosed {q : Quantized} (h : q ≠ 0#16) :
    rn32 ((q.toInt : ℚ) / 32767) = dequantizeClosed q := by
  have hpos := natAbs_toInt_pos h
  have hle := natAbs_toInt_le q
  have htop := (rneInt_scaledQuotient_range hpos hle).2.ne
  rw [scaledQuotient, mul_div_right_comm] at htop
  refine (rn32_intCast_div (den := 32767) (Int.natAbs_pos.mp hpos) (by decide) (int_log_quotient hpos hle)).trans ?_
  rw [Nat.cast_ofNat, if_neg htop, ← mul_div_right_comm, dequantizeClosed]

/-- Settles O28: both the machine and the rule give the closed form, whose significand never ties. -/
theorem dequantizeHasItsClosedForm : Obligations.DequantizeHasItsClosedForm := by
  intro q h a e r
  have hpos : 0 < a := natAbs_toInt_pos h
  have hle : a ≤ 32768 := natAbs_toInt_le q
  have hclosed := rn32_quotient_eq_dequantizeClosed h
  obtain ⟨hlow, hhigh⟩ := rneInt_scaledQuotient_range hpos hle
  exact ⟨(dequantize_eq_rn32 q).trans hclosed, hclosed, dequantizeExponent_range hpos hle, hlow, hhigh,
    fract_scaledQuotient_ne_half hpos hle⟩

/-! ## The fields and the value of a packed pattern (R81, R82) -/

@[simp] theorem f32Negative_packF32 (negative : Bool) (e : ℤ) (m : ℕ) :
    f32Negative (packF32 negative e m) = negative := by
  rw [f32Negative, packF32, BitVec.getLsbD_append, BitVec.getLsbD_append]
  simp

theorem f32Exponent_packF32 (negative : Bool) {e : ℤ} (m : ℕ) (hlow : -127 ≤ e) (hhigh : e ≤ 128) :
    (f32Exponent (packF32 negative e m) : ℤ) = e + 127 := by
  rw [f32Exponent, packF32, BitVec.extractLsb'_append_eq_of_le (le_refl 23),
    BitVec.extractLsb'_append_eq_of_add_le (by decide), BitVec.extractLsb'_eq_self, BitVec.toNat_ofInt]
  omega

theorem f32Fraction_packF32 (negative : Bool) (e : ℤ) {m : ℕ} (h : m < 2 ^ 24) :
    f32Fraction (packF32 negative e m) = m - 2 ^ 23 := by
  rw [f32Fraction, packF32, BitVec.extractLsb'_append_eq_of_add_le (by decide), BitVec.extractLsb'_eq_self,
    BitVec.toNat_ofNat]
  omega

theorem value32_packF32 (negative : Bool) {e : ℤ} {m : ℕ} (he : -126 ≤ e) (he' : e ≤ 127) (hm : 2 ^ 23 ≤ m)
    (hm' : m < 2 ^ 24) :
    value32 (packF32 negative e m) = (if negative then -1 else 1) * m * (2 : ℚ) ^ (e - 23) := by
  have hE := f32Exponent_packF32 negative m (by omega : -127 ≤ e) (by omega)
  have hE0 : f32Exponent (packF32 negative e m) ≠ 0 := by omega
  have hexp : (f32Exponent (packF32 negative e m) : ℤ) - 150 = e - 23 := by omega
  have hsig : (2 : ℚ) ^ 23 + ((m - 2 ^ 23 : ℕ) : ℚ) = m := by
    rw [Nat.cast_sub hm]
    push_cast
    ring
  rw [value32, if_neg hE0, hexp, f32Fraction_packF32 negative e hm', hsig, f32SignQ, f32Negative_packF32]

/-! ## The round trip (R93) -/

/-- The sign of a sample as a factor. -/
def quantizedSignQ (q : Quantized) : ℚ := if decide (q.toInt < 0) then -1 else 1

theorem abs_quantizedSignQ (q : Quantized) : |quantizedSignQ q| = 1 := by
  unfold quantizedSignQ
  split <;> simp

theorem toInt_eq_sign_mul_natAbs (q : Quantized) : (q.toInt : ℚ) = quantizedSignQ q * q.toInt.natAbs := by
  rw [quantizedSignQ, Nat.cast_natAbs, Int.cast_abs]
  by_cases h : q.toInt < 0
  · rw [abs_of_neg (Int.cast_lt_zero.mpr h)]
    simp [h]
  · rw [abs_of_nonneg (Int.cast_nonneg (not_lt.mp h))]
    simp [h]

theorem toInt_div_eq_scaledQuotient (q : Quantized) :
    (q.toInt : ℚ) / 32767 =
      quantizedSignQ q * scaledQuotient q.toInt.natAbs * (2 : ℚ) ^ (dequantizeExponent q.toInt.natAbs - 23) := by
  have hpow : (2 : ℚ) ^ (23 - dequantizeExponent q.toInt.natAbs) *
      (2 : ℚ) ^ (dequantizeExponent q.toInt.natAbs - 23) = 1 := by
    rw [← zpow_add₀ two_ne_zero, sub_add_sub_cancel, sub_self, zpow_zero]
  rw [toInt_eq_sign_mul_natAbs, scaledQuotient]
  linear_combination -(quantizedSignQ q * q.toInt.natAbs / 32767) * hpow

theorem value32_dequantize {q : Quantized} (h : q ≠ 0#16) :
    value32 (dequantize q) =
      quantizedSignQ q * rneInt (scaledQuotient q.toInt.natAbs) * (2 : ℚ) ^ (dequantizeExponent q.toInt.natAbs - 23) := by
  have hpos := natAbs_toInt_pos h
  have hle := natAbs_toInt_le q
  obtain ⟨hlow, hhigh⟩ := rneInt_scaledQuotient_range hpos hle
  have he : -126 ≤ dequantizeExponent q.toInt.natAbs ∧ dequantizeExponent q.toInt.natAbs ≤ 127 := by
    have := dequantizeExponent_range hpos hle
    omega
  have hnat : ((rneInt (scaledQuotient q.toInt.natAbs)).toNat : ℚ) = rneInt (scaledQuotient q.toInt.natAbs) := by
    exact_mod_cast Int.toNat_of_nonneg (by omega : 0 ≤ rneInt (scaledQuotient q.toInt.natAbs))
  rw [dequantize_eq_rn32, rn32_quotient_eq_dequantizeClosed h, dequantizeClosed, ← scaledQuotient,
    value32_packF32 _ he.1 he.2 (by omega) (by omega), hnat, quantizedSignQ]

/-- The error of `dequantize` is the rounding error of its significand, scaled. -/
theorem abs_value32_dequantize_sub {q : Quantized} (h : q ≠ 0#16) :
    |value32 (dequantize q) - (q.toInt : ℚ) / 32767| =
      |scaledQuotient q.toInt.natAbs - rneInt (scaledQuotient q.toInt.natAbs)| *
        (2 : ℚ) ^ (dequantizeExponent q.toInt.natAbs - 23) := by
  rw [value32_dequantize h, toInt_div_eq_scaledQuotient q, ← sub_mul, ← mul_sub, abs_mul, abs_mul,
    abs_quantizedSignQ, one_mul, abs_sub_comm, abs_of_pos (zpow_pos (two_pos (α := ℚ)) _)]

/-- The quotient of 32767 is exactly 1, so its significand needs no rounding. -/
theorem rneInt_scaledQuotient_32767 : (rneInt (scaledQuotient 32767) : ℚ) = scaledQuotient 32767 := by
  have hexact : scaledQuotient 32767 = ((2 ^ 23 : ℤ) : ℚ) := by
    norm_num [scaledQuotient, dequantizeExponent]
  rw [hexact, rneInt_intCast]

theorem value32_dequantize_zero : value32 (dequantize 0#16) = 0 := by
  have hzero : f32Exponent (dequantize 0#16) = 0 ∧ f32Fraction (dequantize 0#16) = 0 := by decide
  simp [value32, hzero]

/-- A sample of magnitude at most 32767 is dequantized with an error below half a unit in the last place of the
values below 1 (R93). -/
theorem abs_value32_dequantize_sub_lt {q : Quantized} (h : q.toInt.natAbs ≤ 32767) :
    |value32 (dequantize q) - (q.toInt : ℚ) / 32767| < (2 : ℚ) ^ (-25 : ℤ) := by
  by_cases hq : q = 0#16
  · rw [hq, value32_dequantize_zero]
    norm_num
  have hpos := natAbs_toInt_pos hq
  rw [abs_value32_dequantize_sub hq]
  rcases dequantizeExponent_range hpos (natAbs_toInt_le q) with ⟨htop, _⟩ | ⟨_, _, he⟩
  · have hexact : q.toInt.natAbs = 32767 := by omega
    rw [hexact, rneInt_scaledQuotient_32767, sub_self, abs_zero, zero_mul]
    positivity
  · have herr := abs_sub_rneInt_lt (fract_scaledQuotient_ne_half hpos (natAbs_toInt_le q))
    have hpow : (2 : ℚ) ^ (dequantizeExponent q.toInt.natAbs - 23) ≤ 2 ^ (-24 : ℤ) :=
      zpow_le_zpow_right₀ one_le_two (by omega)
    calc _ < 1 / 2 * (2 : ℚ) ^ (-24 : ℤ) :=
          mul_lt_mul_of_lt_of_le_of_nonneg_of_pos herr hpow (abs_nonneg _) (by positivity)
      _ = (2 : ℚ) ^ (-25 : ℤ) := by norm_num

theorem sat16_eq_self {z : ℤ} (h : |z| ≤ 32767) : sat16 z = z := by
  obtain ⟨hlow, hhigh⟩ := abs_le.mp h
  rw [sat16, min_eq_right hhigh, max_eq_right (by omega)]

/-- The product of a sample in range rounds into the range of the samples that are no saturation (R87). -/
theorem abs_rneInt_product_le {w : Sample} (h : inRange w) : |rneInt (value32 w * 32767)| ≤ 32767 := by
  obtain ⟨_, hmag⟩ := h
  have herr := abs_sub_rneInt_le (value32 w * 32767)
  have hprod : |value32 w * 32767| ≤ 32767 := by
    rw [abs_mul, abs_of_pos (by norm_num : (0 : ℚ) < 32767)]
    linarith
  have hlt : |(rneInt (value32 w * 32767) : ℚ)| < 32768 := by
    have := abs_sub_abs_le_abs_sub (rneInt (value32 w * 32767) : ℚ) (value32 w * 32767)
    rw [abs_sub_comm] at this
    linarith
  have hint : |rneInt (value32 w * 32767)| < 32768 := by exact_mod_cast hlt
  omega

theorem toInt_quantize_of_inRange {w : Sample} (h : inRange w) :
    (quantize w).toInt = rneInt (value32 w * 32767) := by
  have hle := abs_rneInt_product_le h
  obtain ⟨hlow, hhigh⟩ := abs_le.mp hle
  rw [quantize_of_finite h.1, signed_rneDiv_eq_rneInt, sat16_eq_self hle,
    BitVec.toInt_ofInt_eq_self (by decide) (by omega) (by omega)]

/-- Quantizing moves a sample in range by at most half a step (R93). -/
theorem abs_toInt_quantize_sub_le {w : Sample} (h : inRange w) :
    |((quantize w).toInt : ℚ) / 32767 - value32 w| ≤ 0.5 / 32767 := by
  have herr := abs_sub_rneInt_le (value32 w * 32767)
  rw [abs_sub_comm, ← toInt_quantize_of_inRange h] at herr
  have hscale : ((quantize w).toInt : ℚ) / 32767 - value32 w = ((quantize w).toInt - value32 w * 32767) / 32767 := by
    ring
  rw [hscale, abs_div, abs_of_pos (by norm_num : (0 : ℚ) < 32767)]
  exact div_le_div_of_nonneg_right (herr.trans (by norm_num)) (by norm_num)

/-- The sharper bound of R93: half a step from `quantize`, less than half a unit in the last place from `dequantize`. -/
theorem abs_roundTrip_sub_lt {w : Sample} (h : inRange w) :
    |value32 (dequantize (quantize w)) - value32 w| < 0.5 / 32767 + (2 : ℚ) ^ (-25 : ℤ) := by
  have hnat : (quantize w).toInt.natAbs ≤ 32767 := by
    have hle := abs_rneInt_product_le h
    rw [← toInt_quantize_of_inRange h, Int.abs_eq_natAbs] at hle
    exact_mod_cast hle
  calc |value32 (dequantize (quantize w)) - value32 w|
      ≤ |value32 (dequantize (quantize w)) - ((quantize w).toInt : ℚ) / 32767| +
          |((quantize w).toInt : ℚ) / 32767 - value32 w| := abs_sub_le _ _ _
    _ < (2 : ℚ) ^ (-25 : ℤ) + 0.5 / 32767 :=
        add_lt_add_of_lt_of_le (abs_value32_dequantize_sub_lt hnat) (abs_toInt_quantize_sub_le h)
    _ = 0.5 / 32767 + (2 : ℚ) ^ (-25 : ℤ) := add_comm _ _

/-- Settles O31: the sharper bound lies below the contract's. -/
theorem roundTripContract : Obligations.RoundTripContract := fun _ h =>
  ⟨(abs_roundTrip_sub_lt h).le.trans (by norm_num), abs_roundTrip_sub_lt h⟩

end Sys2Proof.Proofs

/-! PROOFS on the Silence Detector (41_silence.md). ISSIL tests the quantized elements for 0x0000 (R100). A pattern
quantizes to 0x0000 when its product with 32767 lies below 1/2 in magnitude: the product is never 1/2, since 32767 does
not divide a power of two. That inequality of naturals is then read in values and in the fields of the pattern (R102). -/

namespace Sys2Proof.Proofs

open Sys2Proof.Machine Sys2Proof.Laws

/-! ## ISSIL -/

theorem isSilent_iff {qf : List Quantized} : isSilent qf = true ↔ ∀ q ∈ qf, q = 0x0000#16 := by simp [isSilent]

theorem exec_issil {s : State} {t : Txn} (h : s.activity = .busy t) :
    exec .issil s = .next (s.completed { status := statusSuccess (isSilent t.req.qfIn), results := .nothing }) :=
  withTxn_busy h _

/-- Settles O32: the predicate is the status's BOOL bit. -/
theorem issilAnswersAllZero : Obligations.IssilAnswersAllZero := by
  refine ⟨CodeRoundTrip.issil, fun s t h => ⟨fun hzero => ?_, fun ⟨q, hq, hne⟩ => ?_⟩⟩
  · have hsilent : isSilent t.req.qfIn = true := isSilent_iff.mpr hzero
    rw [exec_issil h, hsilent]
    rfl
  · have hsilent : isSilent t.req.qfIn = false :=
      Bool.eq_false_iff.mpr fun hall => hne (isSilent_iff.mp hall q hq)
    rw [exec_issil h, hsilent]
    rfl

/-! ## The patterns that quantize to 0x0000 -/

/-- The numerator, over `2^150`, of the product that `quantize` rounds (R85). -/
def productNumerator (w : Sample) : ℕ := f32Significand w * Config.scale * 2 ^ f32Scale w

/-- A quotient rounds to 0 up to one half, the tie included: 0 is even (R83). -/
theorem rneDiv_eq_zero_iff {num den : ℕ} (hden : 0 < den) : rneDiv num den = 0 ↔ 2 * num ≤ den := by
  rcases lt_or_ge num den with hlt | hge
  · simp only [rneDiv, Nat.div_eq_of_lt hlt, Nat.mod_eq_of_lt hlt]
    split_ifs <;> simp <;> omega
  · have hquot : 0 < num / den := Nat.div_pos hge hden
    have hround := div_le_rneDiv num den
    omega

/-- The product is never one half: the odd factor 32767 divides its numerator and no power of two (R102). -/
theorem two_mul_productNumerator_ne (w : Sample) : 2 * productNumerator w ≠ 2 ^ 150 := by
  intro htie
  have hdvd : 32767 ∣ 2 ^ 150 := htie ▸ ⟨2 * (f32Significand w * 2 ^ f32Scale w), by
    rw [productNumerator, Config.scale]
    ring⟩
  exact absurd hdvd (by norm_num)

theorem abs_value32_mul_scale (w : Sample) : |value32 w| * 32767 = (productNumerator w : ℚ) / (2 ^ 150 : ℕ) := by
  have hsign : |f32SignQ w| = 1 := by
    unfold f32SignQ
    split <;> norm_num
  rw [← abs_of_pos (by norm_num : (0 : ℚ) < 32767), ← abs_mul, value32_mul_scale, abs_mul, hsign, one_mul,
    ← productNumerator, abs_of_nonneg (by positivity)]

theorem abs_value32_lt_iff (w : Sample) : |value32 w| < 1 / 65534 ↔ 2 * productNumerator w < 2 ^ 150 := by
  calc |value32 w| < 1 / 65534 ↔ |value32 w| * 32767 < 1 / 2 := by constructor <;> intro h <;> linarith
    _ ↔ (productNumerator w : ℚ) / (2 ^ 150 : ℕ) < 1 / 2 := by rw [abs_value32_mul_scale]
    _ ↔ 2 * productNumerator w < 2 ^ 150 := by
      rw [div_lt_div_iff₀ (by positivity) two_pos, one_mul, mul_comm]
      norm_cast

theorem signed_eq_zero_iff (negative : Bool) (mag : ℕ) : signed negative mag = 0 ↔ mag = 0 := by
  cases negative <;> simp [signed]

theorem ofInt_sat16_eq_zero_iff (z : ℤ) : BitVec.ofInt 16 (sat16 z) = 0x0000#16 ↔ z = 0 := by
  have hlow : -32768 ≤ sat16 z := le_max_left _ _
  have hhigh : sat16 z ≤ 32767 := max_le (by decide) (min_le_left _ _)
  have htoInt : (BitVec.ofInt 16 (sat16 z)).toInt = sat16 z :=
    BitVec.toInt_ofInt_eq_self (by decide) (by omega) (by omega)
  rw [← BitVec.toInt_inj, htoInt, BitVec.toInt_zero, sat16]
  omega

theorem quantize_eq_zero_iff_of_finite {w : Sample} (h : class32 w = .finite) :
    quantize w = 0x0000#16 ↔ |value32 w| < 1 / 65534 := by
  rw [quantize_of_finite h, ofInt_sat16_eq_zero_iff, signed_eq_zero_iff, ← productNumerator,
    rneDiv_eq_zero_iff (by positivity), abs_value32_lt_iff]
  exact ⟨fun hle => lt_of_le_of_ne hle (two_mul_productNumerator_ne w), le_of_lt⟩

/-- The zero set of `quantize` (R87 item 4). -/
theorem quantize_eq_zero_iff (w : Sample) :
    quantize w = 0x0000#16 ↔ class32 w = .nan ∨ (class32 w = .finite ∧ |value32 w| < 1 / 65534) := by
  cases h : class32 w with
  | nan => simp [quantize, h]
  | inf negative => cases negative <;> simp [quantize, h]
  | finite => simpa using quantize_eq_zero_iff_of_finite h

theorem isSilent_map_quantize (audio : List Sample) :
    isSilent (audio.map quantize) = true ↔
      ∀ w ∈ audio, class32 w = .nan ∨ (class32 w = .finite ∧ |value32 w| < 1 / 65534) := by
  simp only [isSilent_iff, List.forall_mem_map, quantize_eq_zero_iff]

/-! ## The threshold in bit patterns -/

/-- The number a pattern is, without its sign bit: exponent and fraction together (R80). -/
def magnitudeBits (w : Sample) : ℕ := f32Exponent w * 2 ^ 23 + f32Fraction w

theorem magnitudeBits_eq_mod (w : Sample) : magnitudeBits w = w.toNat % 2 ^ 31 := by
  simp only [magnitudeBits, f32Exponent, f32Fraction, BitVec.extractLsb'_toNat, Nat.shiftRight_eq_div_pow]
  omega

/-- The sign bit set adds `0x80000000`, so a bound below that on the magnitude is two ranges of patterns. -/
theorem magnitudeBits_le_iff (w : Sample) {bound : ℕ} (hbound : bound < 2 ^ 31) :
    magnitudeBits w ≤ bound ↔ w.toNat ≤ bound ∨ (2 ^ 31 ≤ w.toNat ∧ w.toNat ≤ 2 ^ 31 + bound) := by
  have hw := w.isLt
  rw [magnitudeBits_eq_mod]
  omega

/-- The threshold by exponent: below 111 every product is under one half, above it none is, and at 111 the fraction
decides, up to 0x100. -/
theorem two_mul_productNumerator_lt_iff (w : Sample) :
    2 * productNumerator w < 2 ^ 150 ↔ magnitudeBits w ≤ 0x37800100 := by
  have hF := f32Fraction_lt w
  simp only [productNumerator, magnitudeBits, Config.scale]
  rcases lt_trichotomy (f32Exponent w) 111 with hbelow | hat | habove
  · have hsig : f32Significand w < 2 ^ 24 := by
      unfold f32Significand
      split <;> omega
    have hpow : 2 ^ f32Scale w ≤ 2 ^ 110 := by
      refine Nat.pow_le_pow_right two_pos ?_
      unfold f32Scale
      split <;> omega
    have hprod : f32Significand w * 32767 * 2 ^ f32Scale w ≤ f32Significand w * 32767 * 2 ^ 110 :=
      Nat.mul_le_mul_left _ hpow
    omega
  · rw [f32Significand, f32Scale, hat, if_neg (by decide), if_neg (by decide)]
    omega
  · have hE : f32Exponent w ≠ 0 := by omega
    have hpow : 2 ^ 112 ≤ 2 ^ f32Exponent w := Nat.pow_le_pow_right two_pos habove
    have hprod : (2 ^ 23 + f32Fraction w) * 32767 * 2 ^ 112 ≤
        (2 ^ 23 + f32Fraction w) * 32767 * 2 ^ f32Exponent w := Nat.mul_le_mul_left _ hpow
    rw [f32Significand, f32Scale, if_neg hE, if_neg hE]
    omega

/-- Infinities and NaN have the largest exponent, so a small magnitude is finite. -/
theorem class32_eq_finite_of_magnitudeBits_le {w : Sample} (h : magnitudeBits w ≤ 0x37800100) :
    class32 w = .finite := by
  refine class32_eq_finite fun hE => ?_
  rw [magnitudeBits, hE] at h
  omega

theorem finite_and_abs_value32_lt_iff (w : Sample) :
    (class32 w = .finite ∧ |value32 w| < 1 / 65534) ↔ magnitudeBits w ≤ 0x37800100 := by
  rw [abs_value32_lt_iff, two_mul_productNumerator_lt_iff]
  exact and_iff_right_of_imp class32_eq_finite_of_magnitudeBits_le

/-- Settles O33: the zero set of `quantize`, element by element, and the patterns it lists. -/
theorem silenceThreshold : Obligations.SilenceThreshold := by
  refine ⟨isSilent_map_quantize, fun w => ?_⟩
  rw [finite_and_abs_value32_lt_iff]
  exact magnitudeBits_le_iff w (by decide)

end Sys2Proof.Proofs

/-! PROOFS on the Frame Codec (42_frame_codec.md). `serFrame` and `desFrame` are inverse to each other, on payloads of
an even number of bytes (R113). A payload is then the serialization of its frame, so that what R110 says of the bytes
of a frame gives what R112 says of the samples of a payload. -/

namespace Sys2Proof.Proofs

open Sys2Proof.Machine Sys2Proof.Laws

/-! ## The two directions of the codec -/

@[simp] theorem desFrame_serFrame (qf : List Quantized) : desFrame (serFrame qf) = qf := by
  induction qf with
  | nil => rfl
  | cons q qf ih => rw [serFrame, desFrame, ofLoHi_bytes, ih]

/-- A payload of even length is the serialization of its frame; a byte left over would be lost (R113). -/
theorem serFrame_desFrame {pl : List Byte} (heven : Even pl.length) : serFrame (desFrame pl) = pl := by
  induction pl using desFrame.induct with
  | case1 lo hi rest ih =>
    have hrest : Even rest.length := by simpa [Nat.even_add_one] using heven
    rw [desFrame, serFrame, loByte_ofLoHi, hiByte_ofLoHi, ih hrest]
  | case2 b => exact absurd heven Nat.not_even_one
  | case3 => rfl

/-! ## Bytes and samples by their offsets -/

/-- Sample `i` stands at payload offset `2i`, low byte first (R110). -/
theorem serFrame_getElem? {qf : List Quantized} {i : ℕ} {q : Quantized} (h : qf[i]? = some q) :
    (serFrame qf)[2 * i]? = some (loByte q) ∧ (serFrame qf)[2 * i + 1]? = some (hiByte q) := by
  induction qf generalizing i with
  | nil => cases h
  | cons p qf ih =>
    cases i with
    | zero =>
      obtain rfl : p = q := Option.some.inj h
      exact ⟨rfl, rfl⟩
    | succ i => exact ih (i := i) h

/-- The bytes at payload offsets `2i` and `2i + 1` are those of sample `i` and of no other (R112). -/
theorem getElem?_of_serFrame {qf : List Quantized} {i : ℕ} {lo hi : Byte} (hlo : (serFrame qf)[2 * i]? = some lo)
    (hhi : (serFrame qf)[2 * i + 1]? = some hi) : qf[i]? = some (ofLoHi lo hi) := by
  have hlt : i < qf.length := by
    obtain ⟨hbound, -⟩ := List.getElem?_eq_some_iff.mp hlo
    rw [serFrame_length] at hbound
    omega
  have hq : qf[i]? = some qf[i] := List.getElem?_eq_getElem hlt
  obtain ⟨hlo', hhi'⟩ := serFrame_getElem? hq
  obtain rfl : loByte qf[i] = lo := Option.some.inj (hlo'.symm.trans hlo)
  obtain rfl : hiByte qf[i] = hi := Option.some.inj (hhi'.symm.trans hhi)
  rw [hq, ofLoHi_bytes]

/-- The samples read behind a header are those of the payload that stands there (R111, R112). -/
theorem readSamples_payload (header pl rest : List Byte) {n : ℕ} (hpl : pl.length = 2 * n) :
    readSamples (Memory.ofBytes (header ++ pl ++ rest)) header.length n = .ok (desFrame pl) := by
  rw [readSamples_ofBytes _ _ _ (by simp [hpl]), List.append_assoc, List.drop_left, ← hpl, List.take_left]

/-! ## FSER and FDES -/

theorem exec_fser {s : State} {t : Txn} (h : s.activity = .busy t) :
    exec .fser s = .next (s.completed { status := 0x0001#16, results := .payload (serFrame t.req.qfIn) }) :=
  withTxn_busy h _

theorem exec_fdes {s : State} {t : Txn} (h : s.activity = .busy t) :
    exec .fdes s = .next (s.completed { status := 0x0001#16, results := .frame (desFrame t.req.plIn) }) :=
  withTxn_busy h _

theorem next_completed_inj {s : State} {r r' : Response} :
    (.next (s.completed r) : Host.Outcome State Fault Refusal) = .next (s.completed r') ↔ r = r' := by
  constructor
  · intro h
    exact Option.some.inj (congrArg State.resp (Host.Outcome.next.inj h))
  · rintro rfl
    rfl

/-- The payload FSER answers is the serialization of its frame, and no other. -/
theorem exec_fser_eq_iff {s : State} {t : Txn} (h : s.activity = .busy t) {pl : List Byte} :
    exec .fser s = .next (s.completed { status := 0x0001#16, results := .payload pl }) ↔
      serFrame t.req.qfIn = pl := by
  rw [exec_fser h, next_completed_inj, Response.mk.injEq, Results.payload.injEq, and_iff_right rfl]

/-- The frame FDES answers is that of its payload, and no other. -/
theorem exec_fdes_eq_iff {s : State} {t : Txn} (h : s.activity = .busy t) {qf : List Quantized} :
    exec .fdes s = .next (s.completed { status := 0x0001#16, results := .frame qf }) ↔
      desFrame t.req.plIn = qf := by
  rw [exec_fdes h, next_completed_inj, Response.mk.injEq, Results.frame.injEq, and_iff_right rfl]

/-- Settles O34: the payload is the serialization of the frame, whose bytes ENC's `MemWrite`s store. -/
theorem fserStoresLowByteFirst : Obligations.FserStoresLowByteFirst := by
  refine ⟨CodeRoundTrip.fser, fun s t h hlen => ⟨serFrame t.req.qfIn, exec_fser h, ?_, ?_, ?_⟩⟩
  · rw [serFrame_length, hlen]
  · exact fun i q hq => serFrame_getElem? hq
  · exact fun m => writeSamples_eq m 5 t.req.qfIn

/-- Settles O35: the payload is the serialization of the frame answered, so its bytes are that frame's. -/
theorem fdesLoadsHighByteFromHigherOffset : Obligations.FdesLoadsHighByteFromHigherOffset := by
  refine ⟨CodeRoundTrip.fdes, fun s t h hlen => ?_⟩
  have hser : serFrame (desFrame t.req.plIn) = t.req.plIn := serFrame_desFrame (hlen ▸ even_two_mul _)
  refine ⟨desFrame t.req.plIn, exec_fdes h, ?_, fun i lo hi hlo hhi => ?_, fun header rest hheader => ?_⟩
  · have hlength := serFrame_length (desFrame t.req.plIn)
    rw [hser, hlen] at hlength
    omega
  · rw [← hser] at hlo hhi
    exact getElem?_of_serFrame hlo hhi
  · rw [← hheader]
    exact readSamples_payload header t.req.plIn rest hlen

/-- Settles O36: FSER's answer is the serialization, FDES's the inverse; only the second direction needs the even
length. -/
theorem frameCodecIsABijection : Obligations.FrameCodecIsABijection := by
  intro s₁ s₂ t₁ t₂ h₁ h₂
  rw [exec_fser_eq_iff h₁, exec_fdes_eq_iff h₂]
  exact ⟨fun hser => hser ▸ desFrame_serFrame t₁.req.qfIn,
    fun hlen hdes => hdes ▸ serFrame_desFrame (hlen ▸ even_two_mul _)⟩

end Sys2Proof.Proofs

/-! PROOFS on the Packet Encoder (43_encoder.md). The four checks reject exactly the operands that are not encodable
(R121 to R126). The packet's fields are written one after the other without a gap, so they fill the blank space with the
packet of R127. That packet's byte 4 and its length are those its TypeId calls for, so the validator accepts it (R129). -/

namespace Sys2Proof.Proofs

open Sys2Proof.Machine Sys2Proof.Laws

/-! ## The checks (R121, R123 to R126) -/

theorem lane_any_iff {lane : List Byte} :
    lane.any (fun c => decide (127 < c.toNat)) = true ↔ ∃ c ∈ lane, 127 < c.toNat := by simp

theorem lane_any_eq_false_iff {lane : List Byte} :
    lane.any (fun c => decide (127 < c.toNat)) = false ↔ ∀ c ∈ lane, c.toNat ≤ 127 := by simp

section Checks

variable {fl : ℕ} {r : Request}

theorem encCheck_of_audioLen (haudio : r.audio.length ≠ fl) : encCheck fl r = some .encAudioLen := by
  rw [encCheck, if_pos haudio]

theorem encCheck_of_laneAscii (haudio : r.audio.length = fl) (hlane : ∃ c ∈ r.lane, 127 < c.toNat) :
    encCheck fl r = some .encLaneAscii := by
  rw [encCheck, if_neg (not_not_intro haudio), if_pos (lane_any_iff.mpr hlane)]

/-- The two length checks are what is left once the first two pass. -/
theorem encCheck_of_ascii (haudio : r.audio.length = fl) (hlane : ∀ c ∈ r.lane, c.toNat ≤ 127) :
    encCheck fl r =
      if 3 < r.lane.length then some .encLaneLen else if 255 < r.ext.length then some .encExtLen else none := by
  rw [encCheck, if_neg (not_not_intro haudio), lane_any_eq_false_iff.mpr hlane, if_neg Bool.false_ne_true]

theorem encCheck_eq_none_iff : encCheck fl r = none ↔ encodable fl r := by
  by_cases haudio : r.audio.length = fl
  · by_cases hlane : ∀ c ∈ r.lane, c.toNat ≤ 127
    · rw [encCheck_of_ascii haudio hlane]
      have hrest : encodable fl r ↔ r.lane.length ≤ 3 ∧ r.ext.length ≤ 255 :=
        ⟨fun ⟨_, _, hsizes⟩ => hsizes, fun hsizes => ⟨haudio, hlane, hsizes⟩⟩
      rw [hrest]
      split_ifs with hlen hext
      · simp [hlen]
      · simp [hext]
      · simp [not_lt.mp hlen, not_lt.mp hext]
    · have hcode : ∃ c ∈ r.lane, 127 < c.toNat := by simpa using hlane
      simp [encCheck_of_laneAscii haudio hcode, encodable, hlane]
  · simp [encCheck_of_audioLen haudio, encodable, haudio]

end Checks

theorem exec_enc_of_encCheck {s : State} {t : Txn} {e : ErrCode} (h : s.activity = .busy t)
    (hcheck : encCheck s.frameLength t.req = some e) : exec .enc s = .next (s.completed (errorResponse e)) := by
  rw [exec, execEnc, withTxn_busy h, hcheck]
  rfl

/-- Settles O39: each clause names the first check that fails, whose error is raised. -/
theorem encReportsTheFirstFailingCheck : Obligations.EncReportsTheFirstFailingCheck := by
  intro s t h
  refine ⟨fun haudio => ?_, fun haudio hlane => ?_, fun haudio hlane hlen => ?_, fun haudio hlane hlen hext => ?_⟩
  · exact exec_enc_of_encCheck h (encCheck_of_audioLen haudio)
  · exact exec_enc_of_encCheck h (encCheck_of_laneAscii haudio hlane)
  · exact exec_enc_of_encCheck (e := .encLaneLen) h (by rw [encCheck_of_ascii haudio hlane, if_pos hlen])
  · exact exec_enc_of_encCheck (e := .encExtLen) h
      (by rw [encCheck_of_ascii haudio hlane, if_neg hlen.not_gt, if_pos hext])

/-! ## The fields of the packet (R127, R128) -/

theorem laneField_length {lane : List Byte} (h : lane.length ≤ 3) : (laneField lane).length = 3 := by
  rw [laneField, List.length_append, List.length_replicate, Nat.add_sub_of_le h]

/-- The AudioPayload field a frame calls for: left out of a silent packet. -/
def payloadField (qf : List Quantized) : List Byte := if isSilent qf then [] else serFrame qf

theorem encodedBytes_eq (r : Request) :
    encodedBytes r =
      [if isSilent (r.audio.map quantize) then Config.typeSilent else Config.typeNormal] ++ laneField r.lane ++
      [BitVec.ofNat 8 r.ext.length] ++ payloadField (r.audio.map quantize) ++ r.ext := rfl

theorem payloadBytes_ofBool (fl : ℕ) (silent : Bool) :
    payloadBytes fl (BitVec.ofBool silent) = if silent then 0 else 2 * fl := by
  cases silent <;> rfl

theorem payloadField_length (qf : List Quantized) :
    (payloadField qf).length = payloadBytes qf.length (BitVec.ofBool (isSilent qf)) := by
  rw [payloadBytes_ofBool, payloadField]
  split
  · rfl
  · exact serFrame_length qf

theorem encodedBytes_length {fl : ℕ} {r : Request} (h : encodable fl r) :
    (encodedBytes r).length =
      5 + payloadBytes fl (BitVec.ofBool (isSilent (r.audio.map quantize))) + r.ext.length := by
  obtain ⟨haudio, -, hlane, -⟩ := h
  simp only [encodedBytes_eq, List.length_append, List.length_singleton, laneField_length hlane, payloadField_length,
    List.length_map, haudio]

/-! ## Writing the packet (R120) -/

/-- A silent packet's payload is not written, which is writing no byte. -/
theorem writeBytes_payloadField (m : Memory) (a : ℕ) (qf : List Quantized) :
    writeBytes m a (payloadField qf) = if isSilent qf then pure m else writeSamples m a qf := by
  rw [payloadField, writeSamples_eq]
  split <;> rfl

/-- Bytes in two portions, in the words of ENC's own sequence of writes. -/
theorem writeBytes_append_bind (m : Memory) (a : ℕ) (xs ys : List Byte) :
    writeBytes m a (xs ++ ys) = writeBytes m a xs >>= fun m' => writeBytes m' (a + xs.length) ys :=
  writeBytes_append m a xs ys

/-- Each field begins where the one before it ends, so ENC's writes store the packet in one piece. -/
theorem encEmit_eq_writeBytes {fl : ℕ} {r : Request} (h : encodable fl r) (l : Locals) :
    encEmit fl r (encDetect (encQuantize r l)) = do
      let m ← writeBytes (Memory.blank (encodedBytes r).length) 0 (encodedBytes r)
      return { encDetect (encQuantize r l) with pkt := m } := by
  rw [encodedBytes_length h]
  obtain ⟨haudio, -, hlane, -⟩ := h
  cases hsilent : isSilent (r.audio.map quantize) <;>
    simp only [encEmit, encDetect_silent, encDetect_qf, encQuantize_qf, memWrite_one, encodedBytes_eq,
      writeBytes_append_bind, bind_assoc, List.length_append, List.length_singleton, laneField_length hlane,
      payloadField_length, List.length_map, haudio, writeBytes_payloadField, Nat.zero_add, Nat.reduceAdd, hsilent,
      if_true, Bool.false_eq_true, if_false]

theorem encEmit_of_encodable {fl : ℕ} {r : Request} (h : encodable fl r) (l : Locals) :
    encEmit fl r (encDetect (encQuantize r l)) =
      .ok { encDetect (encQuantize r l) with pkt := Memory.ofBytes (encodedBytes r) } := by
  rw [encEmit_eq_writeBytes h, writeBytes_blank]
  rfl

theorem exec_enc_of_encodable {s : State} {t : Txn} (h : s.activity = .busy t) (henc : encodable s.frameLength t.req) :
    exec .enc s = .next (s.completed { status := 0x0001#16, results := .packet (encodedBytes t.req) }) := by
  rw [exec, execEnc, withTxn_busy h, encCheck_eq_none_iff.mpr henc]
  simp only [encEmit_of_encodable henc, bind, Except.bind, pure, Except.pure, toOutcome_ok, toBytes_ofBytes]
  rfl

/-- The packet ENC answers is that of R127, and the checks have passed. -/
theorem exec_enc_eq_packet_iff {s : State} {t : Txn} (h : s.activity = .busy t) {pkt : List Byte} :
    exec .enc s = .next (s.completed { status := 0x0001#16, results := .packet pkt }) ↔
      encodable s.frameLength t.req ∧ encodedBytes t.req = pkt := by
  by_cases henc : encodable s.frameLength t.req
  · rw [exec_enc_of_encodable h henc, next_completed_inj, Response.mk.injEq, Results.packet.injEq, and_iff_right rfl,
      and_iff_right henc]
  · obtain ⟨e, hcheck⟩ := Option.ne_none_iff_exists'.mp (mt encCheck_eq_none_iff.mp henc)
    rw [exec_enc_of_encCheck h hcheck, next_completed_inj]
    exact iff_of_false (fun heq => Results.noConfusion (congrArg Response.results heq)) fun ⟨henc', _⟩ => henc henc'

theorem isSilent_eq_decide (qf : List Quantized) : isSilent qf = decide (∀ q ∈ qf, q = 0x0000#16) := by
  rw [Bool.eq_iff_iff, isSilent_iff, decide_eq_true_iff]

/-- Settles O40: the machine's packet is that of R127, whose samples the Quantizer's rule gives. -/
theorem encEmitsThePacket : Obligations.EncEmitsThePacket := by
  refine ⟨CodeRoundTrip.enc, fun s t h henc => ?_⟩
  have hquantize : quantize = quantizeQ := funext quantize_eq_quantizeQ
  simp only [← hquantize, ← isSilent_eq_decide]
  have hlength := encodedBytes_length henc
  rw [payloadBytes_ofBool] at hlength
  exact ⟨exec_enc_of_encodable h henc, hlength⟩

/-! ## The packet is well formed (R129, R132) -/

section PassingStages

variable {fl : ℕ} {raw : Memory} {l : Locals}

theorem stageStep_typeChk (hv : l.vst = .stage .typeChk) :
    stageStep fl raw l = .ok { l with vst := .stage .empty } := by
  rw [stageStep, hv]

theorem stageStep_empty_pass (hv : l.vst = .stage .empty) (h : raw.size ≠ 0) :
    stageStep fl raw l = .ok { l with vst := .stage .typeId } := by
  rw [stageStep, hv]
  exact congrArg _ (if_neg h)

theorem stageStep_typeId_pass {tag : Byte} {i : Instr} (hv : l.vst = .stage .typeId) (hread : raw.read 0 = .ok tag)
    (htag : decodeTag tag = .ok i) :
    stageStep fl raw l = .ok { l with typ := if i = .pktN then 0#1 else 1#1, vst := .stage .hdrLen } := by
  simp only [stageStep, hv, hread, htag, takeTag, bind, Except.bind]

theorem stageStep_hdrLen_pass (hv : l.vst = .stage .hdrLen) (h : 5 ≤ raw.size) :
    stageStep fl raw l = .ok { l with vst := .stage .extLen } := by
  rw [stageStep, hv]
  exact congrArg _ (if_neg h.not_gt)

theorem stageStep_extLen {e : Byte} (hv : l.vst = .stage .extLen) (hread : raw.read 4 = .ok e) :
    stageStep fl raw l =
      .ok { l with extLen := e, expectedLen := expectedLength fl l.typ e, vst := .stage .short } := by
  simp only [stageStep, hv, hread, bind, Except.bind, pure, Except.pure]

theorem stageStep_short_pass (hv : l.vst = .stage .short) (h : l.expectedLen ≤ raw.size) :
    stageStep fl raw l = .ok { l with vst := .stage .long } := by
  rw [stageStep, hv]
  exact congrArg _ (if_neg h.not_gt)

theorem stageStep_long_pass (hv : l.vst = .stage .long) (h : raw.size ≤ l.expectedLen) :
    stageStep fl raw l = .ok { l with vst := .stage .accept } := by
  rw [stageStep, hv]
  exact congrArg _ (if_neg h.not_gt)

theorem stageStep_accept (hv : l.vst = .stage .accept) : stageStep fl raw l = .ok { l with verdict := some .ok } := by
  rw [stageStep, hv]

theorem runStages_succ_of_stageStep {l' : Locals} (h : stageStep fl raw l = .ok l') (n : ℕ) :
    runStages fl raw (n + 1) l = runStages fl raw n l' := by
  rw [runStages, h]
  rfl

end PassingStages

/-- A packet whose byte 0 is a tag and whose length is the one its byte 4 calls for passes every stage (R142 to R149). -/
theorem packetVerdict_of_expectedLength {fl : ℕ} {raw : List Byte} {tag e : Byte} {i : Instr}
    (htag : raw[0]? = some tag) (hrow : decodeTag tag = .ok i) (hext : raw[4]? = some e)
    (hlen : raw.length = expectedLength fl (if i = .pktN then 0#1 else 1#1) e) :
    packetVerdict fl raw = .ok .ok := by
  have hheader : 5 ≤ raw.length := by
    rw [hlen, expectedLength, Config.headerSize]
    omega
  rw [packetVerdict, validate,
    runStages_succ_of_stageStep (stageStep_typeChk rfl),
    runStages_succ_of_stageStep (stageStep_empty_pass rfl (Nat.ne_zero_of_lt hheader)),
    runStages_succ_of_stageStep (stageStep_typeId_pass rfl (ofBytes_read_of_getElem? htag) hrow),
    runStages_succ_of_stageStep (stageStep_hdrLen_pass rfl hheader),
    runStages_succ_of_stageStep (stageStep_extLen rfl (ofBytes_read_of_getElem? hext)),
    runStages_succ_of_stageStep (stageStep_short_pass rfl hlen.ge),
    runStages_succ_of_stageStep (stageStep_long_pass rfl hlen.le),
    runStages_succ_of_stageStep (stageStep_accept rfl)]
  rfl

theorem encodedBytes_getElem?_zero (r : Request) :
    (encodedBytes r)[0]? = some (if isSilent (r.audio.map quantize) then Config.typeSilent else Config.typeNormal) := rfl

theorem encodedBytes_getElem?_four {r : Request} (hlane : r.lane.length ≤ 3) :
    (encodedBytes r)[4]? = some (BitVec.ofNat 8 r.ext.length) := by
  simp [encodedBytes_eq, laneField_length hlane]

/-- The tag ENC writes decodes to the packet row of its format (R51). -/
theorem decodeTag_of_silent (silent : Bool) :
    decodeTag (if silent then Config.typeSilent else Config.typeNormal) = .ok (if silent then .pktS else .pktN) := by
  cases silent <;> rfl

/-- The row's `typ` is the encoder's `silent` bit. -/
theorem typ_of_silent (silent : Bool) :
    (if (if silent then Instr.pktS else Instr.pktN) = .pktN then 0#1 else 1#1) = BitVec.ofBool silent := by
  cases silent <;> rfl

theorem packetVerdict_encodedBytes {fl : ℕ} {r : Request} (h : encodable fl r) :
    packetVerdict fl (encodedBytes r) = .ok .ok := by
  have hlength := encodedBytes_length h
  obtain ⟨-, -, hlane, hext⟩ := h
  have hextLen : (BitVec.ofNat 8 r.ext.length).toNat = r.ext.length := by
    rw [BitVec.toNat_ofNat, Nat.mod_eq_of_lt (by omega)]
  refine packetVerdict_of_expectedLength (encodedBytes_getElem?_zero r) (decodeTag_of_silent _)
    (encodedBytes_getElem?_four hlane) ?_
  rw [typ_of_silent, expectedLength, hextLen, hlength]

theorem isSilent_map_iff (audio : List Sample) :
    isSilent (audio.map quantize) = true ↔ ∀ w ∈ audio, quantize w = 0x0000#16 := by
  rw [isSilent_iff, List.forall_mem_map]

/-- Settles O41: the packet is that of R127, whose TypeId byte the Silence Detector chooses. -/
theorem encodedPacketsAreWellFormed : Obligations.EncodedPacketsAreWellFormed := by
  intro s t pkt h hexec
  obtain ⟨henc, rfl⟩ := (exec_enc_eq_packet_iff h).mp hexec
  refine ⟨packetVerdict_encodedBytes henc, ?_, ?_⟩
  · rw [encodedBytes_getElem?_zero, ← isSilent_map_iff]
    cases isSilent (t.req.audio.map quantize) <;> decide
  · have hsome : (∃ w ∈ t.req.audio, quantize w ≠ 0x0000#16) ↔ ¬ isSilent (t.req.audio.map quantize) = true := by simp [isSilent_map_iff]
    rw [encodedBytes_getElem?_zero, hsome]
    cases isSilent (t.req.audio.map quantize) <;> decide

end Sys2Proof.Proofs

/-! PROOFS on the Packet Validator (44_validator.md). A byte sequence is empty, or begins with no tag, or ends within its
header, or has a whole header, which tells its length (R56). In each of the four cases the stage machine, the byte-serial
machine and `validate_core` give the same verdict (R155). What the verdict says (R159), and the answers of VAL and VALS
(R150, R151), are then read off `validate_core`. -/

namespace Sys2Proof.Proofs

open Sys2Proof.Machine Sys2Proof.Laws

/-! ## The two tags (R51) -/

/-- The TypeId byte of a format. -/
def tagByte (silent : Bool) : Byte := if silent then Config.typeSilent else Config.typeNormal

@[simp] theorem tagByte_false : tagByte false = 0x10#8 := rfl
@[simp] theorem tagByte_true : tagByte true = 0x11#8 := rfl

theorem decodeTag_tagByte (silent : Bool) :
    decodeTag (tagByte silent) = .ok (if silent then .pktS else .pktN) := decodeTag_of_silent silent

theorem decodeTag_of_not_tag {b : Byte} (h : ∀ silent, b ≠ tagByte silent) : decodeTag b = .error (.notATag b) := by
  have hnormal : b ≠ Config.typeNormal := h false
  have hsilent : b ≠ Config.typeSilent := h true
  rw [decodeTag, if_neg hnormal, if_neg hsilent]

/-! ## The verdict on the length (R147 to R149) -/

/-- The verdict on a packet of `n` bytes whose header calls for `expected`. -/
def lengthVerdict (typ : BitVec 1) (expected n : ℕ) : Verdict :=
  if n < expected then shortVerdict typ else if expected < n then longVerdict typ else .ok

section LengthVerdict

variable {typ : BitVec 1} {expected n : ℕ}

theorem lengthVerdict_of_lt (h : n < expected) : lengthVerdict typ expected n = shortVerdict typ := if_pos h

theorem lengthVerdict_of_gt (h : expected < n) : lengthVerdict typ expected n = longVerdict typ := by
  rw [lengthVerdict, if_neg h.not_gt, if_pos h]

theorem lengthVerdict_self : lengthVerdict typ n n = .ok := by
  rw [lengthVerdict, if_neg (lt_irrefl n), if_neg (lt_irrefl n)]

theorem shortVerdict_ne_ok : shortVerdict typ ≠ .ok := by
  unfold shortVerdict
  split <;> exact Verdict.noConfusion

theorem longVerdict_ne_ok : longVerdict typ ≠ .ok := by
  unfold longVerdict
  split <;> exact Verdict.noConfusion

theorem lengthVerdict_eq_ok_iff : lengthVerdict typ expected n = .ok ↔ n = expected := by
  rcases lt_trichotomy n expected with hlt | rfl | hgt
  · simp [lengthVerdict_of_lt hlt, shortVerdict_ne_ok, hlt.ne]
  · simp [lengthVerdict_self]
  · simp [lengthVerdict_of_gt hgt, longVerdict_ne_ok, hgt.ne']

/-- Bytes that are both called for and there do not change the verdict. -/
theorem lengthVerdict_add_right (k : ℕ) : lengthVerdict typ (expected + k) (n + k) = lengthVerdict typ expected n := by
  simp only [lengthVerdict, Nat.add_lt_add_iff_right]

theorem shortVerdict_cases (typ : BitVec 1) : shortVerdict typ = .audioShort ∨ shortVerdict typ = .silentShort :=
  ite_eq_or_eq ..

theorem longVerdict_cases (typ : BitVec 1) : longVerdict typ = .audioLong ∨ longVerdict typ = .silentLong :=
  ite_eq_or_eq ..

end LengthVerdict

/-- `expected_len` of a format (R56). -/
theorem expectedLength_ofBool (fl : ℕ) (silent : Bool) (e : Byte) :
    expectedLength fl (BitVec.ofBool silent) e = 5 + (if silent then 0 else 2 * fl) + e.toNat := by
  rw [expectedLength, payloadBytes_ofBool]

/-! ## The four cases of a byte sequence -/

/-- A whole header of a format, with this ExtLen byte. -/
structure HasHeader (raw : List Byte) (silent : Bool) (e : Byte) : Prop where
  tag : raw[0]? = some (tagByte silent)
  extLen : raw[4]? = some e

/-- How far a byte sequence can be read as a packet. -/
inductive HeaderCase (raw : List Byte) : Prop where
  | empty (hnil : raw = [])
  | notTag (b : Byte) (hb : raw[0]? = some b) (hne : ∀ silent, b ≠ tagByte silent)
  | incomplete (silent : Bool) (htag : raw[0]? = some (tagByte silent)) (hlen : raw.length < 5)
  | whole (silent : Bool) (e : Byte) (h : HasHeader raw silent e)

theorem headerCase (raw : List Byte) : HeaderCase raw := by
  cases raw with
  | nil => exact .empty rfl
  | cons b bs =>
    by_cases htag : ∃ silent, b = tagByte silent
    · obtain ⟨silent, rfl⟩ := htag
      by_cases hlen : (tagByte silent :: bs).length < 5
      · exact .incomplete silent rfl hlen
      · exact .whole silent _ ⟨rfl, List.getElem?_eq_getElem (by omega)⟩
    · exact .notTag b rfl (not_exists.mp htag)

theorem HasHeader.five_le_length {raw : List Byte} {silent : Bool} {e : Byte} (h : HasHeader raw silent e) :
    5 ≤ raw.length := (List.getElem?_eq_some_iff.mp h.extLen).1

theorem length_ne_zero_of_getElem?_zero {raw : List Byte} {b : Byte} (h : raw[0]? = some b) : raw.length ≠ 0 :=
  ((List.getElem?_eq_some_iff.mp h).1).ne'

/-- The header's bytes in front of the rest. -/
theorem HasHeader.exists_eq {raw : List Byte} {silent : Bool} {e : Byte} (h : HasHeader raw silent e) :
    ∃ l0 l1 l2 body, raw = tagByte silent :: l0 :: l1 :: l2 :: e :: body := by
  obtain ⟨htag, hext⟩ := h
  match raw with
  | tag :: l0 :: l1 :: l2 :: e' :: body =>
    obtain rfl := Option.some.inj htag
    obtain rfl := Option.some.inj hext
    exact ⟨l0, l1, l2, body, rfl⟩

/-! ## `validate_core` (R158) -/

section ValidateCore

variable {fl : ℕ} {raw : List Byte} {silent : Bool} {e : Byte}

theorem getD_of_getElem? {k : ℕ} {b d : Byte} (h : raw[k]? = some b) : raw.getD k d = b := by
  rw [List.getD_eq_getElem?_getD, h, Option.getD_some]

theorem validateCore_of_not_tag {b : Byte} (hb : raw[0]? = some b) (hne : ∀ silent, b ≠ tagByte silent) :
    validateCore fl raw = .typeId := by
  rw [validateCore, if_neg (length_ne_zero_of_getElem?_zero hb), getD_of_getElem? hb, if_pos ⟨hne false, hne true⟩]

theorem validateCore_of_incomplete (htag : raw[0]? = some (tagByte silent)) (hlen : raw.length < 5) :
    validateCore fl raw = .hdrShort := by
  rw [validateCore, if_neg (length_ne_zero_of_getElem?_zero htag), getD_of_getElem? htag]
  cases silent <;> simp [hlen]

theorem validateCore_of_header (h : HasHeader raw silent e) :
    validateCore fl raw =
      lengthVerdict (BitVec.ofBool silent) (expectedLength fl (BitVec.ofBool silent) e) raw.length := by
  rw [validateCore, if_neg (length_ne_zero_of_getElem?_zero h.tag), getD_of_getElem? h.tag, getD_of_getElem? h.extLen,
    if_neg (c := raw.length < 5) h.five_le_length.not_gt, expectedLength_ofBool]
  cases silent <;> simp [lengthVerdict, shortVerdict, longVerdict]

/-- A well-formed packet has a whole header and the length it calls for (R56). -/
theorem validateCore_eq_ok_iff :
    validateCore fl raw = .ok ↔
      ∃ silent e, HasHeader raw silent e ∧ raw.length = expectedLength fl (BitVec.ofBool silent) e := by
  constructor
  · intro hok
    cases headerCase raw with
    | empty hnil => subst hnil; cases hok
    | notTag b hb hne => rw [validateCore_of_not_tag hb hne] at hok; cases hok
    | incomplete silent htag hlen => rw [validateCore_of_incomplete htag hlen] at hok; cases hok
    | whole silent e h =>
      rw [validateCore_of_header h] at hok
      exact ⟨silent, e, h, lengthVerdict_eq_ok_iff.mp hok⟩
  · rintro ⟨silent, e, h, hlen⟩
    rw [validateCore_of_header h]
    exact lengthVerdict_eq_ok_iff.mpr hlen

end ValidateCore

/-! ## The stage machine (R141 to R149) -/

section RejectingStages

variable {fl : ℕ} {raw : Memory} {l : Locals}

theorem stageStep_empty_reject (hv : l.vst = .stage .empty) (h : raw.size = 0) :
    stageStep fl raw l = .ok (rejectWith .empty l) := by
  rw [stageStep, hv]
  exact congrArg _ (if_pos h)

theorem stageStep_typeId_reject {b : Byte} (hv : l.vst = .stage .typeId) (hread : raw.read 0 = .ok b)
    (hne : ∀ silent, b ≠ tagByte silent) : stageStep fl raw l = .ok (rejectWith .typeId l) := by
  simp only [stageStep, hv, hread, decodeTag_of_not_tag hne, bind, Except.bind, pure, Except.pure]

theorem stageStep_typeId_tagByte {silent : Bool} (hv : l.vst = .stage .typeId)
    (hread : raw.read 0 = .ok (tagByte silent)) :
    stageStep fl raw l = .ok { l with typ := BitVec.ofBool silent, vst := .stage .hdrLen } := by
  rw [stageStep_typeId_pass hv hread (decodeTag_tagByte silent), typ_of_silent]

theorem stageStep_hdrLen_reject (hv : l.vst = .stage .hdrLen) (h : raw.size < 5) :
    stageStep fl raw l = .ok (rejectWith .hdrShort l) := by
  rw [stageStep, hv]
  exact congrArg _ (if_pos h)

theorem stageStep_short_reject (hv : l.vst = .stage .short) (h : raw.size < l.expectedLen) :
    stageStep fl raw l = .ok (rejectWith (shortVerdict l.typ) l) := by
  rw [stageStep, hv]
  exact congrArg _ (if_pos h)

theorem stageStep_long_reject (hv : l.vst = .stage .long) (h : l.expectedLen < raw.size) :
    stageStep fl raw l = .ok (rejectWith (longVerdict l.typ) l) := by
  rw [stageStep, hv]
  exact congrArg _ (if_pos h)

theorem stageStep_reject (hv : l.vst = .stage .reject) : stageStep fl raw l = .ok l := by
  rw [stageStep, hv]

/-- `ST_REJECT` is final (R141). -/
theorem runStages_reject (hv : l.vst = .stage .reject) (n : ℕ) : runStages fl raw n l = .ok l := by
  induction n with
  | zero => rfl
  | succ n ih => rw [runStages_succ_of_stageStep (stageStep_reject hv), ih]

end RejectingStages

section StageMachine

variable {fl : ℕ} {raw : List Byte} {silent : Bool} {e : Byte}

/-- A run that rejects gives the verdict it rejects with. -/
theorem packetVerdict_of_runStages_reject {n : ℕ} {v : Verdict} {l : Locals}
    (h : runStages fl (Memory.ofBytes raw) 8 (Locals.initial .stage) =
      runStages fl (Memory.ofBytes raw) n (rejectWith v l)) : packetVerdict fl raw = .ok v := by
  rw [packetVerdict, validate, h, runStages_reject rfl]
  rfl

/-- The local variables on entering `ST_TYPEID`. -/
def atTypeId : Locals := { Locals.initial .stage with vst := .stage .typeId }

/-- The local variables on entering `ST_HDRLEN`. -/
def atHdrLen (typ : BitVec 1) : Locals := { atTypeId with typ := typ, vst := .stage .hdrLen }

/-- The local variables on entering `ST_SHORT`. -/
def atShort (fl : ℕ) (typ : BitVec 1) (e : Byte) : Locals :=
  { atHdrLen typ with extLen := e, expectedLen := expectedLength fl typ e, vst := .stage .short }

theorem runStages_to_typeId (hne : raw.length ≠ 0) (n : ℕ) :
    runStages fl (Memory.ofBytes raw) (n + 2) (Locals.initial .stage) =
      runStages fl (Memory.ofBytes raw) n atTypeId := by
  rw [runStages_succ_of_stageStep (stageStep_typeChk rfl),
    runStages_succ_of_stageStep (stageStep_empty_pass rfl hne)]
  rfl

theorem runStages_to_hdrLen (htag : raw[0]? = some (tagByte silent)) (n : ℕ) :
    runStages fl (Memory.ofBytes raw) (n + 3) (Locals.initial .stage) =
      runStages fl (Memory.ofBytes raw) n (atHdrLen (BitVec.ofBool silent)) := by
  rw [runStages_to_typeId (length_ne_zero_of_getElem?_zero htag),
    runStages_succ_of_stageStep (stageStep_typeId_tagByte rfl (ofBytes_read_of_getElem? htag))]
  rfl

theorem runStages_to_short (h : HasHeader raw silent e) (n : ℕ) :
    runStages fl (Memory.ofBytes raw) (n + 5) (Locals.initial .stage) =
      runStages fl (Memory.ofBytes raw) n (atShort fl (BitVec.ofBool silent) e) := by
  rw [runStages_to_hdrLen h.tag, runStages_succ_of_stageStep (stageStep_hdrLen_pass rfl h.five_le_length),
    runStages_succ_of_stageStep (stageStep_extLen rfl (ofBytes_read_of_getElem? h.extLen))]
  rfl

theorem packetVerdict_nil : packetVerdict fl [] = .ok .empty :=
  packetVerdict_of_runStages_reject
    ((runStages_succ_of_stageStep (stageStep_typeChk rfl) 7).trans
      (runStages_succ_of_stageStep (stageStep_empty_reject rfl rfl) 6))

theorem packetVerdict_of_not_tag {b : Byte} (hb : raw[0]? = some b) (hne : ∀ silent, b ≠ tagByte silent) :
    packetVerdict fl raw = .ok .typeId :=
  packetVerdict_of_runStages_reject
    ((runStages_to_typeId (length_ne_zero_of_getElem?_zero hb) 6).trans
      (runStages_succ_of_stageStep (stageStep_typeId_reject rfl (ofBytes_read_of_getElem? hb) hne) 5))

theorem packetVerdict_of_incomplete (htag : raw[0]? = some (tagByte silent)) (hlen : raw.length < 5) :
    packetVerdict fl raw = .ok .hdrShort :=
  packetVerdict_of_runStages_reject
    ((runStages_to_hdrLen htag 5).trans (runStages_succ_of_stageStep (stageStep_hdrLen_reject rfl hlen) 4))

theorem packetVerdict_of_header (h : HasHeader raw silent e) :
    packetVerdict fl raw =
      .ok (lengthVerdict (BitVec.ofBool silent) (expectedLength fl (BitVec.ofBool silent) e) raw.length) := by
  rcases lt_trichotomy raw.length (expectedLength fl (BitVec.ofBool silent) e) with hlt | heq | hgt
  · rw [lengthVerdict_of_lt hlt]
    exact packetVerdict_of_runStages_reject
      ((runStages_to_short h 3).trans (runStages_succ_of_stageStep (stageStep_short_reject rfl hlt) 2))
  · rw [heq, lengthVerdict_self]
    refine packetVerdict_of_expectedLength h.tag (decodeTag_tagByte silent) h.extLen ?_
    rw [typ_of_silent, heq]
  · rw [lengthVerdict_of_gt hgt]
    exact packetVerdict_of_runStages_reject
      (((runStages_to_short h 3).trans (runStages_succ_of_stageStep (stageStep_short_pass rfl hgt.le) 2)).trans
        (runStages_succ_of_stageStep (stageStep_long_reject rfl hgt) 1))

theorem packetVerdict_eq_validateCore (fl : ℕ) (raw : List Byte) :
    packetVerdict fl raw = .ok (validateCore fl raw) := by
  cases headerCase raw with
  | empty hnil => subst hnil; exact packetVerdict_nil
  | notTag b hb hne => rw [packetVerdict_of_not_tag hb hne, validateCore_of_not_tag hb hne]
  | incomplete silent htag hlen => rw [packetVerdict_of_incomplete htag hlen, validateCore_of_incomplete htag hlen]
  | whole silent e h => rw [packetVerdict_of_header h, validateCore_of_header h]

end StageMachine

/-! ## The byte-serial machine (R152 to R154) -/

/-- The verdict of the byte-serial machine that goes on from `l` and consumes `bs`. -/
def serialVerdictFrom (fl : ℕ) (bs : List Byte) (l : Locals) : Except Fault Verdict :=
  runSerial fl bs l >>= serialVerdict

section SerialMachine

variable {fl : ℕ} {raw bs : List Byte} {b : Byte} {silent : Bool} {e : Byte} {l l' : Locals}

theorem serialCore_eq (fl : ℕ) (raw : List Byte) :
    serialCore fl raw = serialVerdictFrom fl raw (Locals.initial .serial) := rfl

theorem serialVerdictFrom_nil : serialVerdictFrom fl [] l = serialVerdict l := rfl

theorem serialVerdictFrom_cons (h : serialStep fl b l = .ok l') :
    serialVerdictFrom fl (b :: bs) l = serialVerdictFrom fl bs l' := by
  rw [serialVerdictFrom, runSerial, h]
  rfl

theorem serialStep_type_tagByte (hv : l.vst = .serial .type) :
    serialStep fl (tagByte silent) l =
      .ok { l with typ := BitVec.ofBool silent, vst := .serial .lane0, pos := l.pos + 1 } := by
  simp only [serialStep, hv, decodeTag_tagByte, takeTag, typ_of_silent]

theorem serialStep_type_not_tag (hv : l.vst = .serial .type) (hne : ∀ silent, b ≠ tagByte silent) :
    serialStep fl b l = .ok { l with vst := .serial .badType, pos := l.pos + 1 } := by
  simp only [serialStep, hv, decodeTag_of_not_tag hne]

theorem serialStep_body (hv : l.vst = .serial .body) :
    serialStep fl b l = .ok { l with rem := l.rem - 1, vst := bodyState (l.rem - 1), pos := l.pos + 1 } := by
  rw [serialStep, hv]

theorem serialStep_full (hv : l.vst = .serial .full) :
    serialStep fl b l = .ok { l with vst := .serial .over, pos := l.pos + 1 } := by
  rw [serialStep, hv]

/-- `BS_OVER` and `BS_BADTYPE` are final: they only count the bytes (R153). -/
theorem serialStep_final (hv : l.vst = .serial .over ∨ l.vst = .serial .badType) :
    serialStep fl b l = .ok { l with pos := l.pos + 1 } := by
  rcases hv with hv | hv <;> rw [serialStep, hv]

theorem serialVerdictFrom_final (hv : l.vst = .serial .over ∨ l.vst = .serial .badType) :
    serialVerdictFrom fl bs l = serialVerdict l := by
  induction bs generalizing l with
  | nil => rfl
  | cons b bs ih =>
    rw [serialVerdictFrom_cons (serialStep_final hv), ih (l := { l with pos := l.pos + 1 }) hv]
    rfl

/-- From the end of the header on, `rem` counts down the bytes still called for. -/
theorem serialVerdictFrom_bodyState (hv : l.vst = bodyState l.rem) :
    serialVerdictFrom fl bs l = .ok (lengthVerdict l.typ l.rem bs.length) := by
  induction bs generalizing l with
  | nil =>
    rcases Nat.eq_zero_or_pos l.rem with hzero | hpos
    · have hfull : l.vst = .serial .full := by rw [hv, bodyState, if_pos hzero]
      rw [serialVerdictFrom_nil, serialVerdict, hfull, hzero, List.length_nil, lengthVerdict_self]
    · have hbody : l.vst = .serial .body := by rw [hv, bodyState, if_neg hpos.ne']
      rw [serialVerdictFrom_nil, serialVerdict, hbody, List.length_nil, lengthVerdict_of_lt hpos]
  | cons b bs ih =>
    rcases Nat.eq_zero_or_pos l.rem with hzero | hpos
    · have hfull : l.vst = .serial .full := by rw [hv, bodyState, if_pos hzero]
      rw [serialVerdictFrom_cons (serialStep_full hfull), serialVerdictFrom_final (.inl rfl), hzero,
        lengthVerdict_of_gt (List.length_pos_iff.mpr (List.cons_ne_nil b bs))]
      rfl
    · have hbody : l.vst = .serial .body := by rw [hv, bodyState, if_neg hpos.ne']
      rw [serialVerdictFrom_cons (serialStep_body hbody), ih rfl, List.length_cons,
        ← lengthVerdict_add_right 1, Nat.sub_add_cancel hpos]

theorem serialCore_of_not_tag (hb : raw[0]? = some b) (hne : ∀ silent, b ≠ tagByte silent) :
    serialCore fl raw = .ok .typeId := by
  cases raw with
  | nil => cases hb
  | cons b' bs =>
    obtain rfl := Option.some.inj hb
    rw [serialCore_eq, serialVerdictFrom_cons (serialStep_type_not_tag rfl hne), serialVerdictFrom_final (.inr rfl)]
    rfl

theorem serialCore_of_incomplete (htag : raw[0]? = some (tagByte silent)) (hlen : raw.length < 5) :
    serialCore fl raw = .ok .hdrShort := by
  cases raw with
  | nil => cases htag
  | cons tag bs =>
    obtain rfl := Option.some.inj htag
    rw [serialCore_eq, serialVerdictFrom_cons (serialStep_type_tagByte rfl)]
    match bs with
    | [] => rfl
    | [_] => rfl
    | [_, _] => rfl
    | [_, _, _] => rfl

theorem serialCore_of_header (h : HasHeader raw silent e) :
    serialCore fl raw =
      .ok (lengthVerdict (BitVec.ofBool silent) (expectedLength fl (BitVec.ofBool silent) e) raw.length) := by
  obtain ⟨l0, l1, l2, body, rfl⟩ := h.exists_eq
  rw [serialCore_eq, serialVerdictFrom_cons (serialStep_type_tagByte rfl), serialVerdictFrom_cons rfl,
    serialVerdictFrom_cons rfl, serialVerdictFrom_cons rfl, serialVerdictFrom_cons rfl, serialVerdictFrom_bodyState rfl,
    ← lengthVerdict_add_right 5]
  simp only [List.length_cons, expectedLength, Config.headerSize]
  congr 2
  omega

theorem serialCore_eq_validateCore (fl : ℕ) (raw : List Byte) : serialCore fl raw = .ok (validateCore fl raw) := by
  cases headerCase raw with
  | empty hnil => subst hnil; rfl
  | notTag b hb hne => rw [serialCore_of_not_tag hb hne, validateCore_of_not_tag hb hne]
  | incomplete silent htag hlen => rw [serialCore_of_incomplete htag hlen, validateCore_of_incomplete htag hlen]
  | whole silent e h => rw [serialCore_of_header h, validateCore_of_header h]

end SerialMachine

/-- Settles O45: both machines give the verdict of `validate_core`. -/
theorem validatorFormsAgree : Obligations.ValidatorFormsAgree := fun fl raw =>
  ⟨(serialCore_eq_validateCore fl raw).trans (packetVerdict_eq_validateCore fl raw).symm,
    packetVerdict_eq_validateCore fl raw⟩

/-! ## What the verdict says (R159) -/

section VerdictFacts

variable {fl : ℕ} {raw raw' : List Byte} {silent : Bool} {e : Byte}

theorem validateCore_congr (hlen : raw'.length = raw.length) (htag : raw'[0]? = raw[0]?) (hext : raw'[4]? = raw[4]?) :
    validateCore fl raw' = validateCore fl raw := by
  simp only [validateCore, List.getD_eq_getElem?_getD, hlen, htag, hext]

theorem packetVerdict_eq_ok_iff :
    packetVerdict fl raw = .ok .ok ↔
      ∃ silent e, HasHeader raw silent e ∧ raw.length = expectedLength fl (BitVec.ofBool silent) e := by
  rw [packetVerdict_eq_validateCore, Except.ok.injEq, validateCore_eq_ok_iff]

theorem tagByte_injective : Function.Injective tagByte := by decide

/-- The format of a well-formed packet is the one its tag tells. -/
theorem header_of_ok_of_tag (hok : packetVerdict fl raw = .ok .ok) (htag : raw[0]? = some (tagByte silent)) :
    ∃ e, HasHeader raw silent e ∧ raw.length = expectedLength fl (BitVec.ofBool silent) e := by
  obtain ⟨silent', e, h, hlen⟩ := packetVerdict_eq_ok_iff.mp hok
  obtain rfl : silent' = silent := tagByte_injective (Option.some.inj (h.tag.symm.trans htag))
  exact ⟨e, h, hlen⟩

theorem HasHeader.take (h : HasHeader raw silent e) {n : ℕ} (hn : 5 ≤ n) : HasHeader (raw.take n) silent e :=
  ⟨(List.getElem?_take_of_lt (by omega)).trans h.tag, (List.getElem?_take_of_lt (by omega)).trans h.extLen⟩

theorem HasHeader.append (h : HasHeader raw silent e) (more : List Byte) : HasHeader (raw ++ more) silent e :=
  have hfive := h.five_le_length
  ⟨(List.getElem?_append_left (by omega)).trans h.tag, (List.getElem?_append_left (by omega)).trans h.extLen⟩

/-- The same header with the other format's tag. -/
theorem HasHeader.retag (h : HasHeader raw silent e) (silent' : Bool) :
    HasHeader (tagByte silent' :: raw.tail) silent' e :=
  ⟨rfl, by rw [List.getElem?_cons_succ, List.getElem?_tail, h.extLen]⟩

theorem HasHeader.retag_length (h : HasHeader raw silent e) (b : Byte) : (b :: raw.tail).length = raw.length := by
  rw [List.length_cons, List.length_tail, Nat.sub_add_cancel (by have := h.five_le_length; omega)]

/-- Item 3: the length law. -/
theorem packetVerdict_eq_ok_iff_length :
    packetVerdict fl raw = .ok .ok ↔
      5 ≤ raw.length ∧ (raw[0]? = some 0x10#8 ∨ raw[0]? = some 0x11#8) ∧
        raw.length = 5 + (if raw[0]? = some 0x10#8 then 2 * fl else 0) + (raw.getD 4 0#8).toNat := by
  have hlaw : ∀ {silent e}, HasHeader raw silent e →
      5 + (if raw[0]? = some 0x10#8 then 2 * fl else 0) + (raw.getD 4 0#8).toNat =
        expectedLength fl (BitVec.ofBool silent) e := by
    intro silent e h
    rw [h.tag, getD_of_getElem? h.extLen, expectedLength_ofBool]
    cases silent <;> rfl
  rw [packetVerdict_eq_ok_iff]
  constructor
  · rintro ⟨silent, e, h, hlen⟩
    refine ⟨h.five_le_length, ?_, hlen.trans (hlaw h).symm⟩
    cases silent with
    | false => exact .inl h.tag
    | true => exact .inr h.tag
  · rintro ⟨hfive, htag, hlen⟩
    obtain ⟨silent, htag⟩ : ∃ silent, raw[0]? = some (tagByte silent) :=
      htag.elim (fun h => ⟨false, h⟩) fun h => ⟨true, h⟩
    have h : HasHeader raw silent raw[4] := ⟨htag, List.getElem?_eq_getElem hfive⟩
    exact ⟨silent, _, h, hlen.trans (hlaw h)⟩

/-! Item 4: a packet cut short, and a packet with bytes appended. -/

theorem packetVerdict_take_of_le_four (h : HasHeader raw silent e) {n : ℕ} (hpos : 1 ≤ n) (hn : n ≤ 4) :
    packetVerdict fl (raw.take n) = .ok .hdrShort :=
  packetVerdict_of_incomplete ((List.getElem?_take_of_lt hpos).trans h.tag)
    ((List.length_take_le n raw).trans_lt (by omega))

theorem packetVerdict_take (h : HasHeader raw silent e)
    (hlen : raw.length = expectedLength fl (BitVec.ofBool silent) e) {n : ℕ} (hn : 5 ≤ n) (hlt : n < raw.length) :
    packetVerdict fl (raw.take n) = .ok (shortVerdict (BitVec.ofBool silent)) := by
  rw [packetVerdict_of_header (h.take hn), lengthVerdict_of_lt]
  rwa [← hlen, List.length_take, min_eq_left hlt.le]

theorem packetVerdict_append (h : HasHeader raw silent e)
    (hlen : raw.length = expectedLength fl (BitVec.ofBool silent) e) {more : List Byte} (hmore : more ≠ []) :
    packetVerdict fl (raw ++ more) = .ok (longVerdict (BitVec.ofBool silent)) := by
  rw [packetVerdict_of_header (h.append more), lengthVerdict_of_gt]
  rw [← hlen, List.length_append]
  exact Nat.lt_add_of_pos_right (List.length_pos_iff.mpr hmore)

/-! Item 6: the extreme lengths. -/

theorem expectedLength_le (fl : ℕ) (silent : Bool) (e : Byte) :
    expectedLength fl (BitVec.ofBool silent) e ≤ 5 + 2 * fl + 255 := by
  have hext := e.isLt
  rw [expectedLength_ofBool]
  split <;> omega

/-- The smallest packet is a SILENT one with no extension bytes. -/
theorem eq_silent_of_expectedLength_eq_five (hfl : 1 ≤ fl) (h : expectedLength fl (BitVec.ofBool silent) e = 5) :
    silent = true ∧ e = 0#8 := by
  rw [expectedLength_ofBool] at h
  cases silent with
  | false =>
    rw [if_neg Bool.false_ne_true] at h
    omega
  | true => exact ⟨rfl, BitVec.eq_of_toNat_eq (by simpa using h)⟩

/-- A NORMAL packet of zeros. -/
def zeroPacket (fl : ℕ) (e : Byte) : List Byte :=
  [0x10#8, 0#8, 0#8, 0#8, e] ++ List.replicate (2 * fl + e.toNat) 0#8

theorem zeroPacket_length (fl : ℕ) (e : Byte) : (zeroPacket fl e).length = 5 + 2 * fl + e.toNat := by
  rw [zeroPacket, List.length_append, List.length_replicate, ← Nat.add_assoc]
  rfl

theorem packetVerdict_zeroPacket (fl : ℕ) (e : Byte) : packetVerdict fl (zeroPacket fl e) = .ok .ok :=
  packetVerdict_eq_ok_iff.mpr
    ⟨false, e, ⟨rfl, rfl⟩, (zeroPacket_length fl e).trans (expectedLength_ofBool fl false e).symm⟩

/-! Item 7: the two tags exchanged. -/

theorem expectedLength_silent_lt_normal (hfl : 1 ≤ fl) (e : Byte) :
    expectedLength fl (BitVec.ofBool true) e < expectedLength fl (BitVec.ofBool false) e := by
  rw [expectedLength_ofBool, expectedLength_ofBool, if_pos rfl, if_neg Bool.false_ne_true]
  omega

theorem packetVerdict_retag_silent (hfl : 1 ≤ fl) (h : HasHeader raw false e)
    (hlen : raw.length = expectedLength fl (BitVec.ofBool false) e) :
    packetVerdict fl (tagByte true :: raw.tail) = .ok .silentLong := by
  rw [packetVerdict_of_header (h.retag true), h.retag_length, hlen,
    lengthVerdict_of_gt (expectedLength_silent_lt_normal hfl e)]
  rfl

theorem packetVerdict_retag_normal (hfl : 1 ≤ fl) (h : HasHeader raw true e)
    (hlen : raw.length = expectedLength fl (BitVec.ofBool true) e) :
    packetVerdict fl (tagByte false :: raw.tail) = .ok .audioShort := by
  rw [packetVerdict_of_header (h.retag false), h.retag_length, hlen,
    lengthVerdict_of_lt (expectedLength_silent_lt_normal hfl e)]
  rfl

end VerdictFacts

/-- Settles O46: a well-formed packet is a whole header with the length it calls for, and each change the items name
keeps a header whose called-for length is known. -/
theorem verdictFacts : Obligations.VerdictFacts := by
  intro fl raw hfl
  refine ⟨⟨_, packetVerdict_eq_validateCore fl raw⟩, fun raw' hlen htag hext => ?_, packetVerdict_eq_ok_iff_length,
    fun hok => ?_, fun b hne hnormal hsilent => ?_, ⟨fun hok => ?_, fun hok hfive => ?_, fun hok htag => ?_,
      fun x y z => ?_, ?_, ?_⟩, fun hok => ⟨fun htag => ?_, fun htag => ?_⟩⟩
  · rw [packetVerdict_eq_validateCore, packetVerdict_eq_validateCore, validateCore_congr hlen htag hext]
  · obtain ⟨silent, e, h, hlen⟩ := packetVerdict_eq_ok_iff.mp hok
    refine ⟨fun n => packetVerdict_take_of_le_four h, fun n hn hlt => ?_, fun more hmore => ?_⟩
    · rw [packetVerdict_take h hlen hn hlt, Except.ok.injEq, Except.ok.injEq]
      exact shortVerdict_cases _
    · rw [packetVerdict_append h hlen hmore, Except.ok.injEq, Except.ok.injEq]
      exact longVerdict_cases _
  · exact packetVerdict_of_not_tag rfl (Bool.forall_bool.mpr ⟨hnormal, hsilent⟩)
  · obtain ⟨silent, e, h, hlen⟩ := packetVerdict_eq_ok_iff.mp hok
    exact ⟨h.five_le_length, hlen.trans_le (expectedLength_le fl silent e)⟩
  · obtain ⟨silent, e, h, hlen⟩ := packetVerdict_eq_ok_iff.mp hok
    obtain ⟨rfl, rfl⟩ := eq_silent_of_expectedLength_eq_five hfl (hlen.symm.trans hfive)
    exact ⟨h.tag, h.extLen⟩
  · obtain ⟨e, h, hlen⟩ := header_of_ok_of_tag (silent := false) hok htag
    rw [hlen, expectedLength_ofBool]
    exact Nat.le_add_right ..
  · exact packetVerdict_eq_ok_iff.mpr ⟨true, 0#8, ⟨rfl, rfl⟩, rfl⟩
  · exact ⟨zeroPacket fl 255#8, packetVerdict_zeroPacket fl _, rfl, rfl, zeroPacket_length fl _⟩
  · exact ⟨zeroPacket fl 0#8, packetVerdict_zeroPacket fl _, rfl, zeroPacket_length fl _⟩
  · obtain ⟨e, h, hlen⟩ := header_of_ok_of_tag (silent := false) hok htag
    exact packetVerdict_retag_silent hfl h hlen
  · obtain ⟨e, h, hlen⟩ := header_of_ok_of_tag (silent := true) hok htag
    exact packetVerdict_retag_normal hfl h hlen

/-! ## VAL and VALS (R150, R151) -/

theorem validate_raw (fl : ℕ) (t : Txn) : validate fl t.raw = .ok (validateCore fl t.req.raw) :=
  packetVerdict_eq_validateCore fl t.req.raw

theorem exec_val {s : State} {t : Txn} (h : s.activity = .busy t) :
    exec .val s = .next (answerVal (validateCore s.frameLength t.req.raw) s) := by
  rw [exec, execVal, withTxn_busy h, validate_raw]
  rfl

theorem exec_vals {s : State} {t : Txn} (h : s.activity = .busy t) :
    exec .vals s = .next (answerVals (validateCore s.frameLength t.req.raw) s) := by
  rw [exec, execVals, withTxn_busy h, validate_raw]
  rfl

/-- Settles O47: VAL answers whether the verdict is `V_OK`. -/
theorem valAnswersWellFormedness : Obligations.ValAnswersWellFormedness := by
  refine ⟨CodeRoundTrip.val, fun s t h => ⟨fun hok => ?_, fun hfail => ?_⟩⟩
  · rw [exec_val h, hok]
    rfl
  · rw [exec_val h, answerVal, decide_eq_false hfail]
    rfl

/-- Settles O48: each failing verdict raises its own error. -/
theorem valsRaisesTheVerdict : Obligations.ValsRaisesTheVerdict := by
  refine ⟨CodeRoundTrip.vals, fun s t h => ?_⟩
  rw [exec_vals h]
  cases validateCore s.frameLength t.req.raw <;> rfl

end Sys2Proof.Proofs

/-! PROOFS on the Packet Decoder (45_decoder.md). A well-formed packet is its fields one after the other, each of the
size its format calls for, and every byte sequence the validator accepts is one. DEC reads each field back where it was
laid, so it answers for every such packet and for no other sequence (R173 to R178); after ENC the fields are those of the
request (R179). -/

namespace Sys2Proof.Proofs

open Sys2Proof.Machine Sys2Proof.Laws

/-! ## A packet as its fields (R50) -/

/-- The fields of a packet one after the other. -/
def fieldBytes (silent : Bool) (lane payload ext : List Byte) : List Byte :=
  tagByte silent :: (lane ++ BitVec.ofNat 8 ext.length :: (payload ++ ext))

/-- The fields have the sizes of their format. -/
structure FieldSizes (fl : ℕ) (silent : Bool) (lane payload ext : List Byte) : Prop where
  lane : lane.length = 3
  payload : payload.length = payloadBytes fl (BitVec.ofBool silent)
  ext : ext.length ≤ 255

theorem encode_normal (lane : List Byte) (qs : List Quantized) (ext : List Byte) :
    (Packet.normal lane qs ext).encode = fieldBytes false lane (serFrame qs) ext := rfl

theorem encode_silent (lane ext : List Byte) : (Packet.silent lane ext).encode = fieldBytes true lane [] ext := rfl

theorem fieldSizes_of_wf_normal {fl : ℕ} {lane ext : List Byte} {qs : List Quantized}
    (h : (Packet.normal lane qs ext).wf fl = true) : FieldSizes fl false lane (serFrame qs) ext := by
  simp only [Packet.wf, Bool.and_eq_true, decide_eq_true_eq] at h
  obtain ⟨⟨hlane, hqs⟩, hext⟩ := h
  exact ⟨hlane, by rw [serFrame_length, hqs]; rfl, hext⟩

theorem fieldSizes_of_wf_silent {fl : ℕ} {lane ext : List Byte} (h : (Packet.silent lane ext).wf fl = true) :
    FieldSizes fl true lane [] ext := by
  simp only [Packet.wf, Bool.and_eq_true, decide_eq_true_eq] at h
  obtain ⟨hlane, hext⟩ := h
  exact ⟨hlane, rfl, hext⟩

/-- The packet of R127 as its fields. -/
theorem encodedBytes_eq_fieldBytes (r : Request) :
    encodedBytes r =
      fieldBytes (isSilent (r.audio.map quantize)) (laneField r.lane) (payloadField (r.audio.map quantize)) r.ext := by
  simp [encodedBytes_eq, fieldBytes, tagByte]

theorem fieldSizes_of_encodable {fl : ℕ} {r : Request} (h : encodable fl r) :
    FieldSizes fl (isSilent (r.audio.map quantize)) (laneField r.lane) (payloadField (r.audio.map quantize)) r.ext := by
  obtain ⟨haudio, -, hlane, hext⟩ := h
  exact ⟨laneField_length hlane, by rw [payloadField_length, List.length_map, haudio], hext⟩

section Fields

variable {fl : ℕ} {silent : Bool} {lane payload ext : List Byte}

theorem FieldSizes.extLen_toNat (h : FieldSizes fl silent lane payload ext) :
    (BitVec.ofNat 8 ext.length).toNat = ext.length := by
  rw [BitVec.toNat_ofNat, Nat.mod_eq_of_lt (Nat.lt_succ_of_le h.ext)]

theorem FieldSizes.hasHeader (h : FieldSizes fl silent lane payload ext) :
    HasHeader (fieldBytes silent lane payload ext) silent (BitVec.ofNat 8 ext.length) := by
  obtain ⟨l0, l1, l2, rfl⟩ := List.length_eq_three.mp h.lane
  exact ⟨rfl, rfl⟩

theorem FieldSizes.validateCore_eq_ok (h : FieldSizes fl silent lane payload ext) :
    validateCore fl (fieldBytes silent lane payload ext) = .ok := by
  refine validateCore_eq_ok_iff.mpr ⟨silent, _, h.hasHeader, ?_⟩
  rw [expectedLength, h.extLen_toNat, ← h.payload]
  simp only [fieldBytes, List.length_cons, List.length_append, h.lane, Config.headerSize]
  omega

/-- The converse: what follows the header splits into the payload and the extension. -/
theorem exists_fieldBytes_of_validateCore_eq_ok {raw : List Byte} (hok : validateCore fl raw = .ok) :
    ∃ silent lane payload ext, FieldSizes fl silent lane payload ext ∧ raw = fieldBytes silent lane payload ext := by
  obtain ⟨silent, e, h, hlen⟩ := validateCore_eq_ok_iff.mp hok
  obtain ⟨l0, l1, l2, body, rfl⟩ := h.exists_eq
  have hbody : body.length = payloadBytes fl (BitVec.ofBool silent) + e.toNat := by
    simp only [expectedLength, Config.headerSize, List.length_cons] at hlen
    omega
  have hext : (body.drop (payloadBytes fl (BitVec.ofBool silent))).length = e.toNat := by
    rw [List.length_drop, hbody, Nat.add_sub_cancel_left]
  refine ⟨silent, [l0, l1, l2], body.take (payloadBytes fl (BitVec.ofBool silent)),
    body.drop (payloadBytes fl (BitVec.ofBool silent)), ⟨rfl, ?_, ?_⟩, ?_⟩
  · rw [List.length_take, hbody, min_eq_left (Nat.le_add_right ..)]
  · rw [hext]
    exact Nat.le_of_lt_succ e.isLt
  · rw [fieldBytes, hext, BitVec.ofNat_toNat, BitVec.setWidth_eq, List.take_append_drop]
    rfl

/-! ## Stripping the name (R175) -/

theorem stripPadding_length_le (field : List Byte) : (stripPadding field).length ≤ field.length := by
  rw [stripPadding, List.length_reverse, ← List.length_reverse (as := field)]
  exact (List.dropWhile_sublist _).length_le

theorem stripPadding_append_replicate (field : List Byte) (n : ℕ) :
    stripPadding (field ++ List.replicate n 0x00#8) = stripPadding field := by
  rw [stripPadding, stripPadding, List.reverse_append, List.reverse_replicate,
    List.dropWhile_append_of_pos (by simp)]

theorem stripPadding_laneField (lane : List Byte) : stripPadding (laneField lane) = stripPadding lane :=
  stripPadding_append_replicate lane _

theorem stripPadding_eq_self {field : List Byte} (h : field.getLast? ≠ some 0x00#8) : stripPadding field = field :=
  List.rdropWhile_eq_self_iff.mpr fun hne hzero =>
    h (by rw [List.getLast?_eq_some_getLast hne, beq_iff_eq.mp hzero])

/-! ## Reading the fields back (R173 to R176) -/

/-- The frame of a packet: its payload dequantized, or zeros where the format has none (R173, R174). -/
def frameOf (fl : ℕ) (silent : Bool) (payload : List Byte) : List Sample :=
  if silent then List.replicate fl 0x00000000#32 else (desFrame payload).map dequantize

/-- A sequence of checked computations whose first ends well goes on with its value. -/
theorem ok_bind {α β : Type} (a : α) (f : α → Except Fault β) : (Except.ok a >>= f) = f a := rfl

theorem FieldSizes.readSamples_eq (h : FieldSizes fl false lane payload ext) :
    readSamples (Memory.ofBytes (fieldBytes false lane payload ext)) 5 fl = .ok (desFrame payload) := by
  obtain ⟨l0, l1, l2, rfl⟩ := List.length_eq_three.mp h.lane
  exact readSamples_payload [0x10#8, l0, l1, l2, BitVec.ofNat 8 ext.length] payload ext h.payload

theorem FieldSizes.readBytes_ext (h : FieldSizes fl silent lane payload ext) :
    readBytes (Memory.ofBytes (fieldBytes silent lane payload ext))
      (5 + payloadBytes fl (BitVec.ofBool silent)) ext.length = .ok ext := by
  obtain ⟨l0, l1, l2, rfl⟩ := List.length_eq_three.mp h.lane
  have hsplit : fieldBytes silent [l0, l1, l2] payload ext =
      ([tagByte silent, l0, l1, l2, BitVec.ofNat 8 ext.length] ++ payload) ++ ext := by simp [fieldBytes]
  have hoffset : 5 + payloadBytes fl (BitVec.ofBool silent) =
      ([tagByte silent, l0, l1, l2, BitVec.ofNat 8 ext.length] ++ payload).length := by
    rw [List.length_append, h.payload]
    rfl
  rw [hsplit, hoffset, readBytes_ofBytes _ _ _ (List.length_append ..).ge, List.drop_left, List.take_length]

/-- The loop of R175 finds the length of the stripped name, which stands from offset 1 on. -/
theorem FieldSizes.readBytes_lane (h : FieldSizes fl silent lane payload ext) :
    laneLength (Memory.ofBytes (fieldBytes silent lane payload ext)) 3 = .ok (stripPadding lane).length ∧
      readBytes (Memory.ofBytes (fieldBytes silent lane payload ext)) 1 (stripPadding lane).length =
        .ok (stripPadding lane) := by
  obtain ⟨l0, l1, l2, rfl⟩ := List.length_eq_three.mp h.lane
  obtain ⟨hlength, hname⟩ :=
    laneLength_ofBytes (tagByte silent) l0 l1 l2 (BitVec.ofNat 8 ext.length :: (payload ++ ext))
  refine ⟨hlength, ?_⟩
  have hbound : 1 + (stripPadding [l0, l1, l2]).length ≤ (fieldBytes silent [l0, l1, l2] payload ext).length := by
    have hle : (stripPadding [l0, l1, l2]).length ≤ 3 := stripPadding_length_le _
    simp only [fieldBytes, List.length_cons, List.length_append]
    omega
  rw [readBytes_ofBytes _ _ _ hbound]
  exact congrArg _ hname

/-- DEC reads every field back where it was laid. -/
theorem FieldSizes.decResults_eq (h : FieldSizes fl silent lane payload ext) :
    decResults fl (Memory.ofBytes (fieldBytes silent lane payload ext)) =
      .ok (.decoded (frameOf fl silent payload) (stripPadding lane) ext) := by
  have htag := ofBytes_read_of_getElem? h.hasHeader.tag
  have htyp : (if tagByte silent = Config.typeSilent then 1#1 else 0#1) = BitVec.ofBool silent := by
    cases silent <;> rfl
  obtain ⟨hlength, hname⟩ := h.readBytes_lane
  rw [decResults, memRead_one_ofBytes h.hasHeader.extLen, h.extLen_toNat]
  simp only [ok_bind, htag, htyp, hlength, hname, h.readBytes_ext]
  cases silent with
  | true => rfl
  | false =>
    rw [h.readSamples_eq]
    rfl

end Fields

/-! ## DEC -/

theorem exec_dec {s : State} {t : Txn} (h : s.activity = .busy t) :
    exec .dec s = toOutcome (answerDec (validateCore s.frameLength t.req.raw) t s) := by
  rw [exec, execDec, withTxn_busy h, validate_raw, ok_bind]

theorem exec_dec_of_decErr {s : State} {t : Txn} {e : ErrCode} (h : s.activity = .busy t)
    (he : decErr (validateCore s.frameLength t.req.raw) = some e) :
    exec .dec s = .next (s.completed (errorResponse e)) := by
  rw [exec_dec h, answerDec, he]
  rfl

theorem exec_dec_of_fieldSizes {s : State} {t : Txn} {silent : Bool} {lane payload ext : List Byte}
    (h : s.activity = .busy t) (hsizes : FieldSizes s.frameLength silent lane payload ext)
    (hraw : t.req.raw = fieldBytes silent lane payload ext) :
    exec .dec s = .next (s.completed
      { status := 0x0001#16, results := .decoded (frameOf s.frameLength silent payload) (stripPadding lane) ext }) := by
  have hcode : decErr .ok = none := rfl
  rw [exec_dec h, answerDec, raw_eq, hraw, hsizes.validateCore_eq_ok, hcode, hsizes.decResults_eq]
  rfl

/-- Settles O51: the packet's encoding is its fields, so DEC reads them back. -/
theorem decReconstructsThePacket : Obligations.DecReconstructsThePacket := by
  refine ⟨CodeRoundTrip.dec, fun s t p h hwf hraw => ?_⟩
  cases p with
  | normal lane qs ext =>
    have hframe : frameOf s.frameLength false (serFrame qs) = qs.map fun q => rn32 ((q.toInt : ℚ) / 32767) := by
      rw [← funext dequantize_eq_rn32]
      exact congrArg _ (desFrame_serFrame qs)
    have hdec := exec_dec_of_fieldSizes h (fieldSizes_of_wf_normal hwf) (hraw.trans (encode_normal lane qs ext))
    rwa [hframe] at hdec
  | silent lane ext =>
    exact exec_dec_of_fieldSizes h (fieldSizes_of_wf_silent hwf) (hraw.trans (encode_silent lane ext))

/-! ## DEC and VAL (R178) -/

@[simp] theorem statusOk_statusWord (err : Byte) (kind : ErrKind) (bool ok : Bool) :
    statusOk (statusWord err kind bool ok) = ok := by
  rw [statusOk, statusWord, BitVec.getLsbD_append]
  simp

@[simp] theorem statusBool_statusWord (err : Byte) (kind : ErrKind) (bool ok : Bool) :
    statusBool (statusWord err kind bool ok) = bool := by
  rw [statusBool, statusWord, BitVec.getLsbD_append, BitVec.getLsbD_append]
  simp

/-- Every verdict but `V_OK` is an error of DEC (R172). -/
theorem decErr_of_ne_ok {v : Verdict} (h : v ≠ .ok) : ∃ e, decErr v = some e := by
  cases v with
  | ok => exact absurd rfl h
  | _ => exact ⟨_, rfl⟩

/-- Settles O52: both operations ask for the same verdict, and on `V_OK` there are fields for DEC to read. -/
theorem decSucceedsIffValidates : Obligations.DecSucceedsIffValidates := by
  intro s t h
  by_cases hok : validateCore s.frameLength t.req.raw = .ok
  · obtain ⟨silent, lane, payload, ext, hsizes, hraw⟩ := exists_fieldBytes_of_validateCore_eq_ok hok
    refine ⟨_, _, exec_val h, exec_dec_of_fieldSizes h hsizes hraw, ?_⟩
    rw [hok]
    exact iff_of_true (by decide : statusOk 0x0001#16 = true) (by decide)
  · obtain ⟨e, he⟩ := decErr_of_ne_ok hok
    refine ⟨_, _, exec_val h, exec_dec_of_decErr h he, ?_⟩
    simp [errorResponse, statusError, statusSuccess, hok]

/-! ## DEC after ENC (R179) -/

/-- A silent frame is left out of the packet, yet DEC answers for it what its samples would give (R174). -/
theorem frameOf_payloadField {fl : ℕ} {qf : List Quantized} (hlen : qf.length = fl) :
    frameOf fl (isSilent qf) (payloadField qf) = qf.map dequantize := by
  cases hsilent : isSilent qf with
  | false => simp [frameOf, payloadField, hsilent]
  | true =>
    obtain rfl : qf = List.replicate fl 0x0000#16 := List.eq_replicate_iff.mpr ⟨hlen, isSilent_iff.mp hsilent⟩
    have hzero : dequantize 0x0000#16 = 0x00000000#32 := rfl
    simp [frameOf, hzero]

/-- The exponent of `dequantize` is far below that of the infinities (R91, R92). -/
theorem class32_dequantize (q : Quantized) : class32 (dequantize q) = .finite := by
  by_cases hq : q = 0#16
  · rw [hq]
    rfl
  have hrange := dequantizeExponent_range (natAbs_toInt_pos hq) (natAbs_toInt_le q)
  refine class32_eq_finite ?_
  rw [dequantize_eq_rn32, rn32_quotient_eq_dequantizeClosed hq, dequantizeClosed]
  have hexponent := f32Exponent_packF32 (decide (q.toInt < 0))
    (rneInt (scaledQuotient q.toInt.natAbs)).toNat (e := dequantizeExponent q.toInt.natAbs) (by omega) (by omega)
  rw [← scaledQuotient]
  omega

/-- What DEC answers for the packet ENC made of a request. -/
theorem exec_dec_of_encodedBytes {s : State} {t : Txn} {r : Request} (h : s.activity = .busy t)
    (henc : encodable s.frameLength r) (hraw : t.req.raw = encodedBytes r) :
    exec .dec s = .next (s.completed
      { status := 0x0001#16,
        results := .decoded (r.audio.map (dequantize ∘ quantize)) (stripPadding r.lane) r.ext }) := by
  have ⟨haudio, _⟩ := henc
  have hlen : (r.audio.map quantize).length = s.frameLength := by rw [List.length_map, haudio]
  rw [exec_dec_of_fieldSizes h (fieldSizes_of_encodable henc) (hraw.trans (encodedBytes_eq_fieldBytes r)),
    frameOf_payloadField hlen, stripPadding_laneField, List.map_map]

/-- Settles O53: sample by sample the answer is the Quantizer's round trip. -/
theorem encodeDecodeRoundTrip : Obligations.EncodeDecodeRoundTrip := by
  intro s₁ s₂ t₁ t₂ h₁ h₂ hfl henc hrange hlast
  have ⟨haudio, _⟩ := henc
  refine ⟨_, exec_enc_of_encodable h₁ henc, fun hraw =>
    ⟨t₁.req.audio.map (dequantize ∘ quantize), ?_, ?_, fun i w w' hw hw' => ?_⟩⟩
  · rw [exec_dec_of_encodedBytes h₂ (hfl ▸ henc) hraw, stripPadding_eq_self hlast]
  · rw [List.length_map, haudio]
  · rw [List.getElem?_map, hw] at hw'
    obtain rfl : dequantize (quantize w) = w' := Option.some.inj hw'
    obtain ⟨hcontract, -⟩ := roundTripContract w (hrange w (List.mem_of_getElem? hw))
    exact ⟨class32_dequantize _, hcontract⟩

end Sys2Proof.Proofs

/-! PROOFS on RESET (70_reset_and_hazards.md). The host's input is looked at before the activity, so RESET does the
same in IDLE and while BUSY. -/

namespace Sys2Proof.Proofs

open Sys2Proof.Machine Sys2Proof.Laws

/-- The host's input of the step is the first one in line. -/
theorem nextInput_of_inputs_cons {s : State} {i : HostInput} {rest : List HostInput} (h : s.inputs = i :: rest) :
    nextInput s = i := by
  rw [nextInput, h, List.headD_cons]

/-- What RESET leaves: only the activity, the pending response and the input it took are not what they were (R220). -/
theorem applyReset_takeInput {s : State} {i : HostInput} {rest : List HostInput} (h : s.inputs = i :: rest) :
    applyReset (takeInput s) = { s with activity := .idle, resp := none, inputs := rest } := by
  rw [applyReset, takeInput, h, List.tail_cons]

/-- A step that meets RESET applies it whatever the block is doing: neither branch on the activity is reached (R220). -/
theorem step_of_nextInput_reset {s : State} (h : nextInput s = .reset) : step s = .next (applyReset (takeInput s)) := by
  simp only [step, h]

/-- Settles O10: RESET is the step's input, and applying it gives the stated state. -/
theorem resetAbandonsAndIdles : Obligations.ResetAbandonsAndIdles := by
  intro s rest hinputs
  rw [step_of_nextInput_reset (nextInput_of_inputs_cons hinputs), applyReset_takeInput hinputs]

end Sys2Proof.Proofs

/-! PROOFS on whole packets (30_encoding.md R50 to R56). Behind a whole header the decoder compares the length with the
one the header calls for, and gives the fields; before that it gives nothing. So the sequences that decode are those the
validator accepts, the fields of a packet laid one after the other, and decoding and encoding undo each other. -/

namespace Sys2Proof.Proofs

open Sys2Proof.Machine Sys2Proof.Laws

/-! ## The packet of given fields -/

/-- The packet of a format with these fields, the payload deserialized. -/
def packetOf (silent : Bool) (lane payload ext : List Byte) : Packet :=
  if silent then .silent lane ext else .normal lane (desFrame payload) ext

section PacketOf

variable {fl : ℕ} {silent : Bool} {lane payload ext : List Byte}

/-- The payload is empty, or twice as many bytes as samples. -/
theorem FieldSizes.serFrame_desFrame_payload (h : FieldSizes fl silent lane payload ext) :
    serFrame (desFrame payload) = payload := by
  have hsize := h.payload
  rw [payloadBytes_ofBool] at hsize
  refine serFrame_desFrame ?_
  rw [hsize]
  split
  · exact Even.zero
  · exact even_two_mul fl

theorem FieldSizes.encode_packetOf (h : FieldSizes fl silent lane payload ext) :
    (packetOf silent lane payload ext).encode = fieldBytes silent lane payload ext := by
  cases silent with
  | false => exact (encode_normal ..).trans (by rw [h.serFrame_desFrame_payload])
  | true =>
    obtain rfl : payload = [] := List.length_eq_zero_iff.mp h.payload
    exact encode_silent lane ext

theorem FieldSizes.wf_packetOf (h : FieldSizes fl silent lane payload ext) :
    (packetOf silent lane payload ext).wf fl = true := by
  cases silent with
  | false =>
    have hsamples : (desFrame payload).length = fl := by
      have hlen := serFrame_length (desFrame payload)
      rw [h.serFrame_desFrame_payload, h.payload, payloadBytes_ofBool, if_neg Bool.false_ne_true] at hlen
      omega
    simp [packetOf, Packet.wf, h.lane, h.ext, hsamples]
  | true => simp [packetOf, Packet.wf, h.lane, h.ext]

end PacketOf

/-- A well-formed packet is the packet of fields of the sizes of its format. -/
theorem exists_fields_of_wf {fl : ℕ} {p : Packet} (h : p.wf fl = true) :
    ∃ silent lane payload ext, FieldSizes fl silent lane payload ext ∧ p = packetOf silent lane payload ext := by
  cases p with
  | normal lane qs ext =>
    refine ⟨false, lane, serFrame qs, ext, fieldSizes_of_wf_normal h, ?_⟩
    exact congrArg (Packet.normal lane · ext) (desFrame_serFrame qs).symm
  | silent lane ext => exact ⟨true, lane, [], ext, fieldSizes_of_wf_silent h, rfl⟩

/-! ## The packet decoder -/

/-- Behind a whole header the length decides (R56). -/
theorem decode_of_header (fl : ℕ) (silent : Bool) (l0 l1 l2 e : Byte) (body : List Byte) :
    Packet.decode fl (tagByte silent :: l0 :: l1 :: l2 :: e :: body) =
      if body.length = payloadBytes fl (BitVec.ofBool silent) + e.toNat then
        some (packetOf silent [l0, l1, l2] (body.take (payloadBytes fl (BitVec.ofBool silent)))
          (body.drop (payloadBytes fl (BitVec.ofBool silent))))
      else none := by
  rw [Packet.decode, decodeTag_tagByte, payloadBytes_ofBool]
  cases silent <;> simp [packetOf]

theorem decode_of_not_tag {fl : ℕ} {raw : List Byte} {b : Byte} (hb : raw[0]? = some b)
    (hne : ∀ silent, b ≠ tagByte silent) : Packet.decode fl raw = none := by
  match raw with
  | [] | [_] | [_, _] | [_, _, _] | [_, _, _, _] => rfl
  | tag :: _ :: _ :: _ :: _ :: _ =>
    obtain rfl := Option.some.inj hb
    rw [Packet.decode, decodeTag_of_not_tag hne]

theorem decode_of_short {fl : ℕ} {raw : List Byte} (h : raw.length < 5) : Packet.decode fl raw = none := by
  match raw with
  | [] | [_] | [_, _] | [_, _, _] | [_, _, _, _] => rfl
  | _ :: _ :: _ :: _ :: _ :: _ => simp only [List.length_cons] at h; omega

/-- Fields laid one after the other decode to their packet. -/
theorem FieldSizes.decode_fieldBytes {fl : ℕ} {silent : Bool} {lane payload ext : List Byte}
    (h : FieldSizes fl silent lane payload ext) :
    Packet.decode fl (fieldBytes silent lane payload ext) = some (packetOf silent lane payload ext) := by
  obtain ⟨l0, l1, l2, rfl⟩ := List.length_eq_three.mp h.lane
  have hlen : (payload ++ ext).length = payload.length + (BitVec.ofNat 8 ext.length).toNat := by
    rw [List.length_append, h.extLen_toNat]
  exact (decode_of_header fl silent l0 l1 l2 _ _).trans
    (by rw [← h.payload, if_pos hlen, List.take_left, List.drop_left])

/-- A sequence that decodes is one the validator accepts. -/
theorem validateCore_of_decode {fl : ℕ} {raw : List Byte} {p : Packet} (h : Packet.decode fl raw = some p) :
    validateCore fl raw = .ok := by
  cases headerCase raw with
  | empty hnil => subst hnil; cases h
  | notTag b hb hne => rw [decode_of_not_tag hb hne] at h; cases h
  | incomplete silent htag hlen => rw [decode_of_short hlen] at h; cases h
  | whole silent e hheader =>
    obtain ⟨l0, l1, l2, body, rfl⟩ := hheader.exists_eq
    rw [decode_of_header] at h
    split at h
    next hlen =>
      refine validateCore_eq_ok_iff.mpr ⟨silent, e, hheader, ?_⟩
      simp only [List.length_cons, expectedLength, Config.headerSize]
      omega
    next => cases h

/-- Settles O3: the encoding is the packet's fields laid one after the other, which decode to it. -/
theorem packetDecodeEncodeRoundTrip : Obligations.PacketDecodeEncodeRoundTrip := by
  intro fl p hwf
  obtain ⟨silent, lane, payload, ext, hsizes, rfl⟩ := exists_fields_of_wf hwf
  rw [hsizes.encode_packetOf, hsizes.decode_fieldBytes]

/-- Settles O4: the validator accepts the sequence, so it is fields laid one after the other. -/
theorem packetEncodeDecodeRoundTrip : Obligations.PacketEncodeDecodeRoundTrip := by
  intro fl raw p h
  obtain ⟨silent, lane, payload, ext, hsizes, rfl⟩ :=
    exists_fieldBytes_of_validateCore_eq_ok (validateCore_of_decode h)
  obtain rfl := Option.some.inj (hsizes.decode_fieldBytes.symm.trans h)
  exact ⟨hsizes.wf_packetOf, hsizes.encode_packetOf⟩

/-! ## A packet before a block of another FRAME_LENGTH (R224, U27) -/

/-- A well-formed packet's length is the one its own constant calls for. -/
theorem FieldSizes.fieldBytes_length {fl : ℕ} {silent : Bool} {lane payload ext : List Byte}
    (h : FieldSizes fl silent lane payload ext) :
    (fieldBytes silent lane payload ext).length =
      expectedLength fl (BitVec.ofBool silent) (BitVec.ofNat 8 ext.length) := by
  rw [expectedLength, h.extLen_toNat, ← h.payload]
  simp only [fieldBytes, List.length_cons, List.length_append, h.lane, Config.headerSize]
  omega

theorem FieldSizes.packetVerdict_fieldBytes {fl : ℕ} {silent : Bool} {lane payload ext : List Byte}
    (h : FieldSizes fl silent lane payload ext) (fl' : ℕ) :
    packetVerdict fl' (fieldBytes silent lane payload ext) =
      .ok (lengthVerdict (BitVec.ofBool silent) (payloadBytes fl' (BitVec.ofBool silent))
        (payloadBytes fl (BitVec.ofBool silent))) := by
  rw [packetVerdict_of_header h.hasHeader, h.fieldBytes_length, expectedLength, expectedLength,
    lengthVerdict_add_right, Nat.add_comm, Nat.add_comm Config.headerSize, lengthVerdict_add_right]

/-- Settles O49: only the payload's size depends on the constant. -/
theorem otherFrameLengthsAreIllFormed : Obligations.OtherFrameLengthsAreIllFormed := by
  intro fl fl' p hwf
  cases p with
  | normal lane qs ext =>
    have hverdict := (fieldSizes_of_wf_normal hwf).packetVerdict_fieldBytes fl'
    rw [payloadBytes_ofBool, payloadBytes_ofBool, if_neg Bool.false_ne_true, if_neg Bool.false_ne_true] at hverdict
    refine ⟨fun hlt => ?_, fun hlt => ?_⟩
    · rw [encode_normal, hverdict, lengthVerdict_of_lt (by omega)]
      rfl
    · rw [encode_normal, hverdict, lengthVerdict_of_gt (by omega)]
      rfl
  | silent lane ext => exact (fieldSizes_of_wf_silent hwf).packetVerdict_fieldBytes fl'

/-! ## DEC's errors, and DEC after ENC (R131, R134, R172) -/

/-- Settles O50: each failing verdict has its own error. -/
theorem decReportsItsError : Obligations.DecReportsItsError := by
  intro s t h hfail
  obtain ⟨e, he⟩ := decErr_of_ne_ok hfail
  rw [exec_dec_of_decErr h he]
  cases hv : validateCore s.frameLength t.req.raw with
  | ok => exact absurd hv hfail
  | _ =>
    rw [hv] at he
    obtain rfl := Option.some.inj he
    rfl

/-- Settles O42: every sample comes back as the dequantized zero. -/
theorem silenceCollapse : Obligations.SilenceCollapse := by
  intro s₁ s₂ t₁ t₂ h₁ h₂ hfl henc hzero
  have hsilent : isSilent (t₁.req.audio.map quantize) = true := (isSilent_map_iff _).mpr hzero
  have ⟨haudio, _⟩ := henc
  have hframe : t₁.req.audio.map (dequantize ∘ quantize) = List.replicate s₁.frameLength 0x00000000#32 := by
    refine List.eq_replicate_iff.mpr ⟨by rw [List.length_map, haudio], List.forall_mem_map.mpr fun w hw => ?_⟩
    rw [Function.comp_apply, hzero w hw]
    rfl
  refine ⟨_, exec_enc_of_encodable h₁ henc, ?_, fun hraw => ⟨stripPadding t₁.req.lane, ?_⟩⟩
  · rw [encodedBytes_length henc, hsilent]
    rfl
  · rw [exec_dec_of_encodedBytes h₂ (hfl ▸ henc) hraw, hframe]

/-- Settles O54: the packet is that of R127, whose lane field is the name padded. -/
theorem namesComeBackStripped : Obligations.NamesComeBackStripped := by
  intro s₁ s₂ t₁ t₂ h₁ h₂ hfl henc hexec
  obtain ⟨-, hpkt⟩ := (exec_enc_eq_packet_iff h₁).mp hexec
  exact ⟨_, exec_dec_of_encodedBytes h₂ (hfl ▸ henc) hpkt.symm⟩

end Sys2Proof.Proofs

/-! PROOFS on the Quantizer's properties (R87, R92). `quantize` is the rounded product, clamped: rounding and clamping
are monotone, and odd but for the clamp. `dequantize` rounds to an integer multiple of a unit in the last place; the
finite patterns that are no such multiple lie below every quotient of that exponent. Its error is far below the distance
of two quotients. -/

namespace Sys2Proof.Proofs

open Sys2Proof.Machine Sys2Proof.Laws

/-! ## `quantize` as the clamped rounded product (R85) -/

/-- Settles O24: the product is never one half, so rounding to 0 is being below it. -/
theorem quantizeZeroSet : Obligations.QuantizeZeroSet := quantize_eq_zero_iff

theorem rneInt_mono {r r' : ℚ} (h : r ≤ r') : rneInt r ≤ rneInt r' := by
  by_contra hlt
  have hstep : (rneInt r' : ℚ) + 1 ≤ rneInt r := by exact_mod_cast not_le.mp hlt
  have hlow := (abs_le.mp (abs_sub_rneInt_le r)).1
  have hhigh := (abs_le.mp (abs_sub_rneInt_le r')).2
  -- Both lie on the one tie between the two results.
  obtain rfl : r = r' := by linarith
  exact hlt le_rfl

theorem sat16_mono {z z' : ℤ} (h : z ≤ z') : sat16 z ≤ sat16 z' := by
  rw [sat16, sat16]
  omega

theorem toInt_quantize_of_finite {w : Sample} (h : class32 w = .finite) :
    (quantize w).toInt = sat16 (rneInt (value32 w * 32767)) := by
  have hlow : -32768 ≤ sat16 (rneInt (value32 w * 32767)) := le_max_left _ _
  have hhigh : sat16 (rneInt (value32 w * 32767)) ≤ 32767 := max_le (by decide) (min_le_left _ _)
  rw [quantize_of_finite h, signed_rneDiv_eq_rneInt,
    BitVec.toInt_ofInt_eq_self (by decide) (by omega) (by omega)]

theorem quantize_of_inf {w : Sample} {negative : Bool} (h : class32 w = .inf negative) :
    quantize w = if negative then 0x8000#16 else 0x7FFF#16 := by
  simp only [quantize, h]
  cases negative <;> rfl

/-! ## Range (R87 item 1) -/

/-- The magnitude 32767.5/32767 is no pattern's: 32767 would divide 65535 times a power of two. -/
theorem value32_ne_lower_tie (w : Sample) : value32 w ≠ -(32767.5 / 32767) := by
  intro heq
  have hmag := abs_value32_mul_scale w
  rw [heq, abs_neg, abs_of_pos (by norm_num), eq_div_iff (by positivity)] at hmag
  norm_num at hmag
  have hnum : 65535 * 2 ^ 149 = productNumerator w := by
    exact_mod_cast (by linarith : (65535 * 2 ^ 149 : ℚ) = productNumerator w)
  have hdvd : 32767 ∣ 65535 * 2 ^ 149 := hnum ▸ ⟨f32Significand w * 2 ^ f32Scale w, by
    rw [productNumerator, Config.scale]
    ring⟩
  exact absurd hdvd (by norm_num)

theorem value32_lt_of_quantize_eq_min {w : Sample} (hfin : class32 w = .finite) (h : quantize w = 0x8000#16) :
    value32 w < -(32767.5 / 32767) := by
  have hsat := toInt_quantize_of_finite hfin
  rw [h, sat16, show (0x8000#16 : Quantized).toInt = -32768 by decide] at hsat
  have hround : (rneInt (value32 w * 32767) : ℚ) ≤ -32768 := by
    exact_mod_cast (by omega : rneInt (value32 w * 32767) ≤ -32768)
  have herr := (abs_le.mp (abs_sub_rneInt_le (value32 w * 32767))).2
  refine lt_of_le_of_ne ?_ (value32_ne_lower_tie w)
  norm_num
  linarith

/-- Settles O25: in range nothing saturates, and the lower clamp takes a product below -32767.5. -/
theorem quantizeRange : Obligations.QuantizeRange := by
  refine ⟨fun w h => ?_, fun w h => ?_⟩
  · rw [toInt_quantize_of_inRange h]
    exact abs_le.mp (abs_rneInt_product_le h)
  · cases hclass : class32 w with
    | nan => simp [quantize, hclass] at h
    | inf negative =>
      rw [quantize_of_inf hclass] at h
      cases negative with
      | false => exact absurd h (by decide)
      | true => exact .inl rfl
    | finite => exact .inr ⟨rfl, value32_lt_of_quantize_eq_min hclass h⟩

/-! ## Flipping the sign bit -/

@[simp] theorem f32Negative_flip (w : Sample) : f32Negative (w ^^^ 0x80000000#32) = !f32Negative w := by
  simp [f32Negative]

@[simp] theorem f32Exponent_flip (w : Sample) : f32Exponent (w ^^^ 0x80000000#32) = f32Exponent w := by
  have hzero : (0x80000000#32).extractLsb' 23 8 = 0#8 := by decide
  rw [f32Exponent, BitVec.extractLsb'_xor, hzero, BitVec.xor_zero, f32Exponent]

@[simp] theorem f32Fraction_flip (w : Sample) : f32Fraction (w ^^^ 0x80000000#32) = f32Fraction w := by
  have hzero : (0x80000000#32).extractLsb' 0 23 = 0#23 := by decide
  rw [f32Fraction, BitVec.extractLsb'_xor, hzero, BitVec.xor_zero, f32Fraction]

theorem f32SignQ_flip (w : Sample) : f32SignQ (w ^^^ 0x80000000#32) = -f32SignQ w := by
  rw [f32SignQ, f32SignQ, f32Negative_flip]
  cases f32Negative w <;> simp

theorem value32_flip (w : Sample) : value32 (w ^^^ 0x80000000#32) = -value32 w := by
  simp only [value32, f32SignQ_flip, f32Exponent_flip, f32Fraction_flip]
  split <;> ring

theorem class32_flip (w : Sample) :
    class32 (w ^^^ 0x80000000#32) = match class32 w with
      | .nan => .nan
      | .inf negative => .inf (!negative)
      | .finite => .finite := by
  simp only [class32, f32Exponent_flip, f32Fraction_flip, f32Negative_flip]
  split_ifs <;> rfl

/-! ## Monotonicity and oddness (R87 items 5 and 6) -/

/-- Negation passes the clamp, or leads from one end of it to the other. -/
theorem sat16_neg_cases (z : ℤ) :
    sat16 (-z) = -sat16 z ∨ (sat16 z = 32767 ∧ sat16 (-z) = -32768) ∨ (sat16 z = -32768 ∧ sat16 (-z) = 32767) := by
  simp only [sat16]
  omega

theorem eq_of_toInt {q : Quantized} {z : ℤ} (h : q.toInt = z) : q = BitVec.ofInt 16 z := by
  rw [← h, BitVec.ofInt_toInt]

theorem quantize_flip_of_finite {w : Sample} (h : class32 w = .finite) :
    quantize (w ^^^ 0x80000000#32) = -(quantize w) ∨
      (quantize w = 0x7FFF#16 ∧ quantize (w ^^^ 0x80000000#32) = 0x8000#16) ∨
      (quantize w = 0x8000#16 ∧ quantize (w ^^^ 0x80000000#32) = 0x7FFF#16) := by
  have hq := toInt_quantize_of_finite h
  have hq' : (quantize (w ^^^ 0x80000000#32)).toInt = sat16 (-rneInt (value32 w * 32767)) := by
    rw [toInt_quantize_of_finite (by rw [class32_flip, h]), value32_flip, neg_mul, rneInt_neg]
  rcases sat16_neg_cases (rneInt (value32 w * 32767)) with hneg | ⟨htop, hbot⟩ | ⟨hbot, htop⟩
  · refine .inl ?_
    rw [hneg, ← hq] at hq'
    rw [eq_of_toInt hq', BitVec.ofInt_neg, BitVec.ofInt_toInt]
  · exact .inr (.inl ⟨eq_of_toInt (hq.trans htop), eq_of_toInt (hq'.trans hbot)⟩)
  · exact .inr (.inr ⟨eq_of_toInt (hq.trans hbot), eq_of_toInt (hq'.trans htop)⟩)

/-- Settles O26: rounding and the clamp are monotone, and rounding is odd. -/
theorem quantizeMonotoneAndOdd : Obligations.QuantizeMonotoneAndOdd := by
  refine ⟨fun a b ha hb hle => ?_, fun w hnan => ?_⟩
  · rw [toInt_quantize_of_finite ha, toInt_quantize_of_finite hb]
    exact sat16_mono (rneInt_mono (by linarith))
  · cases hclass : class32 w with
    | nan => exact absurd hclass hnan
    | inf negative =>
      have hflip := class32_flip w
      rw [hclass] at hflip
      rw [quantize_of_inf hclass, quantize_of_inf hflip]
      cases negative <;> decide
    | finite => exact quantize_flip_of_finite hclass

/-! ## `dequantize` is nearest (R82, R90) -/

/-- No integer lies nearer than the rounded one. -/
theorem abs_sub_rneInt_le_abs_sub (r : ℚ) (n : ℤ) : |r - rneInt r| ≤ |r - n| := by
  by_cases hn : n = rneInt r
  · rw [hn]
  have hapart : (1 : ℚ) ≤ |(rneInt r : ℚ) - n| := by
    exact_mod_cast Int.one_le_abs (sub_ne_zero.mpr (Ne.symm hn))
  have htri := abs_sub_le (rneInt r : ℚ) r n
  rw [abs_sub_comm (rneInt r : ℚ) r] at htri
  linarith [abs_sub_rneInt_le r]

theorem scaledQuotient_ge {a : ℕ} (hpos : 0 < a) (hle : a ≤ 32768) : (2 : ℚ) ^ 23 ≤ scaledQuotient a := by
  obtain ⟨hlow, _⟩ := normalizedMagnitude_range hpos hle
  have hlow' : (32767 : ℚ) ≤ normalizedMagnitude a := by exact_mod_cast hlow
  rw [scaledQuotient_eq hpos hle, le_div_iff₀ (by norm_num)]
  push_cast
  linarith

/-- A finite pattern's value, in units of `2^k`: an integer when its own unit is no smaller, else below `2^23` in
magnitude (R81). -/
theorem value32_units (w : Sample) (k : ℤ) :
    (∃ n : ℤ, value32 w = n * (2 : ℚ) ^ k) ∨ |value32 w| < 2 ^ 23 * (2 : ℚ) ^ k := by
  have hsign : f32SignQ w = ((if f32Negative w then -1 else 1 : ℤ) : ℚ) := by
    unfold f32SignQ
    split <;> norm_num
  rcases le_or_gt k ((f32Scale w : ℤ) - 150) with hle | hgt
  · refine .inl ⟨(if f32Negative w then -1 else 1) * f32Significand w * 2 ^ ((f32Scale w : ℤ) - 150 - k).toNat, ?_⟩
    have hexp : (2 : ℚ) ^ ((f32Scale w : ℤ) - 150) = 2 ^ ((f32Scale w : ℤ) - 150 - k).toNat * (2 : ℚ) ^ k := by
      rw [← zpow_natCast, ← zpow_add₀ two_ne_zero, Int.toNat_of_nonneg (by omega), sub_add_cancel]
    rw [value32_eq, hsign, hexp]
    push_cast
    ring
  · refine .inr ?_
    have hsig : (f32Significand w : ℚ) < 2 ^ 24 := by
      have hF := f32Fraction_lt w
      exact_mod_cast (by unfold f32Significand; split <;> omega : f32Significand w < 2 ^ 24)
    have hpow : (2 : ℚ) ^ ((f32Scale w : ℤ) - 150) ≤ (2 : ℚ) ^ (k - 1) := zpow_le_zpow_right₀ one_le_two (by omega)
    have habs : |f32SignQ w| = 1 := by
      unfold f32SignQ
      split <;> norm_num
    rw [value32_eq, abs_mul, abs_mul, habs, one_mul, Nat.abs_cast, abs_of_pos (zpow_pos (two_pos (α := ℚ)) _)]
    calc (f32Significand w : ℚ) * (2 : ℚ) ^ ((f32Scale w : ℤ) - 150)
        < 2 ^ 24 * (2 : ℚ) ^ (k - 1) :=
          mul_lt_mul_of_lt_of_le_of_nonneg_of_pos hsig hpow (Nat.cast_nonneg _) (by positivity)
      _ = 2 ^ 23 * (2 : ℚ) ^ k := by
        rw [zpow_sub_one₀ two_ne_zero]
        ring

theorem quantizedSignQ_mul_self (q : Quantized) : quantizedSignQ q * quantizedSignQ q = 1 := by
  rw [← abs_mul_abs_self, abs_quantizedSignQ, one_mul]

theorem quantizedSignQ_eq_intCast (q : Quantized) : ∃ σ : ℤ, quantizedSignQ q = σ := by
  unfold quantizedSignQ
  split
  · exact ⟨-1, by norm_num⟩
  · exact ⟨1, by norm_num⟩

/-- Values in units of the result's last place: the integers among them lie no nearer than the rounded significand, and
the others lie below `2^23`, an integer below the significand. -/
theorem abs_value32_dequantize_sub_le_abs_sub {q : Quantized} (hq : q ≠ 0#16) (w : Sample) :
    |value32 (dequantize q) - (q.toInt : ℚ) / 32767| ≤ |value32 w - (q.toInt : ℚ) / 32767| := by
  have hge := scaledQuotient_ge (natAbs_toInt_pos hq) (natAbs_toInt_le q)
  rw [abs_value32_dequantize_sub hq, toInt_div_eq_scaledQuotient q]
  generalize dequantizeExponent q.toInt.natAbs - 23 = k
  generalize scaledQuotient q.toInt.natAbs = m at hge
  have hpow : (0 : ℚ) < (2 : ℚ) ^ k := by positivity
  rcases value32_units w k with ⟨n, hn⟩ | hsmall
  · obtain ⟨σ, hσ⟩ := quantizedSignQ_eq_intCast q
    have hunit : |(n : ℚ) - quantizedSignQ q * m| = |m - ((σ * n : ℤ) : ℚ)| := by
      have hfactor : quantizedSignQ q * (n - quantizedSignQ q * m) = -(m - ((σ * n : ℤ) : ℚ)) := by
        rw [mul_sub, ← mul_assoc, quantizedSignQ_mul_self, hσ]
        push_cast
        ring
      have habs := congrArg abs hfactor
      rwa [abs_mul, abs_quantizedSignQ, one_mul, abs_neg] at habs
    rw [hn, ← sub_mul, abs_mul, abs_of_pos hpow, hunit]
    exact mul_le_mul_of_nonneg_right (abs_sub_rneInt_le_abs_sub m _) hpow.le
  · have hmag : |quantizedSignQ q * m * (2 : ℚ) ^ k| = m * (2 : ℚ) ^ k := by
      rw [abs_mul, abs_mul, abs_quantizedSignQ, one_mul, abs_of_pos hpow,
        abs_of_nonneg ((by positivity : (0 : ℚ) ≤ 2 ^ 23).trans hge)]
    have hround : |m - rneInt m| ≤ m - 2 ^ 23 := by
      have hnear := abs_sub_rneInt_le_abs_sub m (2 ^ 23)
      rwa [Int.cast_pow, Int.cast_ofNat, abs_of_nonneg (sub_nonneg.mpr hge)] at hnear
    calc |m - rneInt m| * (2 : ℚ) ^ k ≤ (m - 2 ^ 23) * (2 : ℚ) ^ k := mul_le_mul_of_nonneg_right hround hpow.le
      _ ≤ |quantizedSignQ q * m * (2 : ℚ) ^ k| - |value32 w| := by
        rw [hmag, sub_mul]
        linarith
      _ ≤ |value32 w - quantizedSignQ q * m * (2 : ℚ) ^ k| := by
        rw [abs_sub_comm (value32 w)]
        exact abs_sub_abs_le_abs_sub _ _

/-- Settles O29: for 0 the result is the quotient itself. -/
theorem dequantizeIsNearest : Obligations.DequantizeIsNearest := by
  refine fun q => ⟨class32_dequantize q, fun w _ => ?_⟩
  by_cases hq : q = 0#16
  · rw [hq, value32_dequantize_zero]
    simp
  · exact abs_value32_dequantize_sub_le_abs_sub hq w

/-! ## `dequantize` is odd, strictly monotone and undone by `quantize` (R92) -/

/-- The sign is bit 31 of a packed pattern. -/
theorem packF32_not (negative : Bool) (e : ℤ) (m : ℕ) :
    packF32 (!negative) e m = packF32 negative e m ^^^ 0x80000000#32 := by
  have hbit : (0x80000000#32 : BitVec 32) = 1#1 ++ 0#8 ++ 0#23 := by decide
  rw [packF32, packF32, hbit, BitVec.xor_append, BitVec.xor_append, BitVec.xor_zero, BitVec.xor_zero]
  cases negative <;> rfl

theorem rn32Div_not (negative : Bool) {num : ℕ} (den : ℕ) (h : num ≠ 0) :
    rn32Div (!negative) num den = rn32Div negative num den ^^^ 0x80000000#32 := by
  simp only [rn32Div, h, if_false, packF32_not]
  split <;> rfl

theorem dequantize_neg {q : Quantized} (hzero : q ≠ 0x0000#16) (hmin : q ≠ 0x8000#16) :
    dequantize (-q) = dequantize q ^^^ 0x80000000#32 := by
  have hneg : (-q).toInt = -q.toInt := BitVec.toInt_neg_of_ne_intMin hmin
  have hne : q.toInt ≠ 0 := Int.natAbs_pos.mp (natAbs_toInt_pos hzero)
  have hsign : decide (-q.toInt < 0) = !decide (q.toInt < 0) := by
    rw [← decide_not, decide_eq_decide]
    omega
  rw [dequantize, dequantize, hneg, Int.natAbs_neg, hsign, rn32Div_not _ _ (Int.natAbs_ne_zero.mpr hne)]

/-- Half a unit in the last place of the values in `[1, 2)` bounds the error for every sample. -/
theorem abs_value32_dequantize_sub_le (q : Quantized) :
    |value32 (dequantize q) - (q.toInt : ℚ) / 32767| ≤ (2 : ℚ) ^ (-24 : ℤ) := by
  by_cases hq : q = 0#16
  · rw [hq, value32_dequantize_zero]
    norm_num
  have hexp := dequantizeExponent_nonpos (natAbs_toInt_pos hq) (natAbs_toInt_le q)
  have hpow : (2 : ℚ) ^ (dequantizeExponent q.toInt.natAbs - 23) ≤ (2 : ℚ) ^ (-23 : ℤ) :=
    zpow_le_zpow_right₀ one_le_two (by omega)
  rw [abs_value32_dequantize_sub hq]
  calc _ ≤ 1 / 2 * (2 : ℚ) ^ (-23 : ℤ) :=
        mul_le_mul (abs_sub_rneInt_le _) hpow (zpow_pos two_pos _).le (by norm_num)
    _ = (2 : ℚ) ^ (-24 : ℤ) := by norm_num

theorem value32_dequantize_strictMono {q q' : Quantized} (h : q.toInt < q'.toInt) :
    value32 (dequantize q) < value32 (dequantize q') := by
  have hstep : (q.toInt : ℚ) + 1 ≤ q'.toInt := by exact_mod_cast h
  have herr := (abs_le.mp (abs_value32_dequantize_sub_le q)).2
  have herr' := (abs_le.mp (abs_value32_dequantize_sub_le q')).1
  have hgap : (2 : ℚ) ^ (-24 : ℤ) + (2 : ℚ) ^ (-24 : ℤ) < 1 / 32767 := by norm_num
  linarith

/-- The product with 32767 lies within 1/2 of the sample, so it rounds back to it. -/
theorem quantize_dequantize (q : Quantized) : quantize (dequantize q) = q := by
  have herr := abs_value32_dequantize_sub_le q
  have hnear : |value32 (dequantize q) * 32767 - q.toInt| < 1 / 2 := by
    have hscale : value32 (dequantize q) * 32767 - q.toInt =
        (value32 (dequantize q) - (q.toInt : ℚ) / 32767) * 32767 := by ring
    rw [hscale, abs_mul, abs_of_pos (by norm_num : (0 : ℚ) < 32767)]
    norm_num at herr ⊢
    linarith
  have hlow := BitVec.le_toInt q
  have hhigh := BitVec.toInt_lt (x := q)
  have hsat : sat16 q.toInt = q.toInt := by
    rw [sat16]
    omega
  apply BitVec.eq_of_toInt_eq
  rw [toInt_quantize_of_finite (class32_dequantize q), rneInt_eq_of_nearestEven (.inl hnear), hsat]

/-- Settles O30: the sign is a bit of its own, and the error is below half the distance of two quotients. -/
theorem dequantizeOddMonotoneInvertible : Obligations.DequantizeOddMonotoneInvertible :=
  ⟨fun _ => dequantize_neg, fun _ _ => value32_dequantize_strictMono, quantize_dequantize⟩

end Sys2Proof.Proofs

/-! PROOFS on the packet byte space (20_memory.md R35, R36). A `MemWrite` stores the lowest byte and then the rest above
it, and a `MemRead` takes them back in the same order. -/

namespace Sys2Proof.Proofs

open Sys2Proof.Machine Sys2Proof.Laws

/-! ## Reading (R35) -/

/-- The high part of a read is the read of the bytes above. -/
theorem memRead_succ {m : Memory} {addr n v : ℕ} {b : Byte} (hb : m.read addr = .ok b)
    (hv : memRead m (addr + 1) n = .ok v) : memRead m addr (n + 1) = .ok (b.toNat + 256 * v) := by
  rw [memRead, hb, ok_bind, hv]
  rfl

theorem toNat_append_bytes (lo hi : Byte) : (hi ++ lo).toNat = lo.toNat + 256 * hi.toNat := by
  have hpair := ofLoHi_toNat lo hi
  rw [ofLoHi] at hpair
  omega

/-- Settles O37: the byte at the higher offset is the high part. -/
theorem memReadIsLittleEndian : Obligations.MemReadIsLittleEndian := by
  intro raw addr lo hi hlo hhi
  refine ⟨memRead_one_ofBytes hlo, ?_⟩
  rw [toNat_append_bytes]
  exact memRead_succ (ofBytes_read_of_getElem? hlo) (memRead_one_ofBytes hhi)

/-! ## Writing (R36) -/

theorem memWrite_succ {m m₁ : Memory} {addr v : ℕ} (h : m.write addr (BitVec.ofNat 8 v) = .ok m₁) (n : ℕ) :
    memWrite m addr (n + 1) v = memWrite m₁ (addr + 1) n (v / 256) := by
  rw [memWrite, h]
  rfl

theorem read_eq_of_lookupCell_eq {m m' : Memory} {a : ℕ} (hsize : m'.size = m.size)
    (h : lookupCell m'.cells a = lookupCell m.cells a) : m'.read a = m.read a := by
  rw [Memory.read, Memory.read, hsize, h]

/-- Settles O38, by induction on the number of bytes: the first is stored at `addr`, and the rest of the write, which
begins above it, leaves it as it is. -/
theorem memWriteStoresItsBytesOnly : Obligations.MemWriteStoresItsBytesOnly := by
  intro m addr n v hwf hbound
  induction n generalizing m addr v with
  | zero => exact ⟨m, rfl, hwf, rfl, by rw [memRead, pow_zero, Nat.mod_one], fun _ _ => rfl⟩
  | succ n ih =>
    obtain ⟨m₁, hwrite, hwf₁, hsize₁, hcell₁⟩ := write_spec hwf (BitVec.ofNat 8 v) (a := addr) (by omega)
    obtain ⟨m₂, hrest, hwf₂, hsize₂, hread₂, hframe₂⟩ := ih m₁ (addr + 1) (v / 256) hwf₁ (by omega)
    refine ⟨m₂, (memWrite_succ hwrite n).trans hrest, hwf₂, hsize₂.trans hsize₁, ?_, fun a ha => ?_⟩
    · have hfirst : m₂.read addr = .ok (BitVec.ofNat 8 v) := by
        rw [hframe₂ addr (.inl (Nat.lt_succ_self addr)), Memory.read, if_pos (by omega), hcell₁, if_pos rfl]
      have hsplit : v % 256 ^ (n + 1) = v % 256 + 256 * (v / 256 % 256 ^ n) := by rw [pow_succ', Nat.mod_mul]
      rw [memRead_succ hfirst hread₂, hsplit, BitVec.toNat_ofNat]
    · have hne : a ≠ addr := by omega
      rw [hframe₂ a (by omega), read_eq_of_lookupCell_eq hsize₁ ((hcell₁ a).trans (if_neg hne))]

end Sys2Proof.Proofs

/-! PROOFS on the order of the stages (44_validator.md R141, R142, R146). A stage step is one of a few moves; what every
move keeps holds after any number of stages. -/

namespace Sys2Proof.Proofs

open Sys2Proof.Machine Sys2Proof.Laws

/-! ## Everything a stage step can do -/

/-- The stages that can reject, each with failing verdicts only. -/
def mayReject (st : Stage) : Bool :=
  st = .empty || st = .typeId || st = .hdrLen || st = .short || st = .long

/-- The stage after a stage that has passed without setting a variable. -/
inductive PlainPass : Stage → Stage → Prop where
  | typeChk : PlainPass .typeChk .empty
  | empty : PlainPass .empty .typeId
  | hdrLen : PlainPass .hdrLen .extLen
  | short : PlainPass .short .long
  | long : PlainPass .long .accept

/-- What a stage step makes of the local variables. -/
inductive StageMove (fl : ℕ) (raw : Memory) (l : Locals) : Locals → Prop where
  | pass (st st' : Stage) (hv : l.vst = .stage st) (hnext : PlainPass st st') :
      StageMove fl raw l { l with vst := .stage st' }
  | tag (typ : BitVec 1) (hv : l.vst = .stage .typeId) :
      StageMove fl raw l { l with typ := typ, vst := .stage .hdrLen }
  | extLen (e : Byte) (hv : l.vst = .stage .extLen) (hread : raw.read 4 = .ok e) :
      StageMove fl raw l { l with extLen := e, expectedLen := expectedLength fl l.typ e, vst := .stage .short }
  | fail (st : Stage) (v : Verdict) (hv : l.vst = .stage st) (hst : mayReject st = true) (hfail : v ≠ .ok) :
      StageMove fl raw l (rejectWith v l)
  | accepted (hv : l.vst = .stage .accept) : StageMove fl raw l { l with verdict := some .ok }
  | rejected (hv : l.vst = .stage .reject) : StageMove fl raw l l

section Stages

variable {fl : ℕ} {raw : Memory} {l l' : Locals}

theorem stageMove_of_stageStep_typeId (hv : l.vst = .stage .typeId) (h : stageStep fl raw l = .ok l') :
    StageMove fl raw l l' := by
  cases hread : raw.read 0 with
  | error f => simp [stageStep, hv, hread, bind, Except.bind] at h
  | ok b =>
    by_cases hne : ∀ silent, b ≠ tagByte silent
    · obtain rfl := Except.ok.inj ((stageStep_typeId_reject hv hread hne).symm.trans h)
      exact .fail .typeId .typeId hv rfl Verdict.noConfusion
    · obtain ⟨silent, hb⟩ := not_forall_not.mp hne
      obtain rfl := Except.ok.inj ((stageStep_typeId_tagByte hv (hb ▸ hread)).symm.trans h)
      exact .tag _ hv

/-- Every stage step is a move. -/
theorem stageMove_of_stageStep (h : stageStep fl raw l = .ok l') : StageMove fl raw l l' := by
  cases hv : l.vst with
  | serial st => simp [stageStep, hv] at h
  | stage st =>
    cases st with
    | typeChk =>
      obtain rfl := Except.ok.inj ((stageStep_typeChk hv).symm.trans h)
      exact .pass _ _ hv .typeChk
    | empty =>
      by_cases hsize : raw.size = 0
      · obtain rfl := Except.ok.inj ((stageStep_empty_reject hv hsize).symm.trans h)
        exact .fail .empty .empty hv rfl Verdict.noConfusion
      · obtain rfl := Except.ok.inj ((stageStep_empty_pass hv hsize).symm.trans h)
        exact .pass _ _ hv .empty
    | typeId => exact stageMove_of_stageStep_typeId hv h
    | hdrLen =>
      rcases lt_or_ge raw.size 5 with hlt | hge
      · obtain rfl := Except.ok.inj ((stageStep_hdrLen_reject hv hlt).symm.trans h)
        exact .fail .hdrLen .hdrShort hv rfl Verdict.noConfusion
      · obtain rfl := Except.ok.inj ((stageStep_hdrLen_pass hv hge).symm.trans h)
        exact .pass _ _ hv .hdrLen
    | extLen =>
      cases hread : raw.read 4 with
      | error f => simp [stageStep, hv, hread, bind, Except.bind] at h
      | ok e =>
        obtain rfl := Except.ok.inj ((stageStep_extLen hv hread).symm.trans h)
        exact .extLen e hv hread
    | short =>
      rcases lt_or_ge raw.size l.expectedLen with hlt | hge
      · obtain rfl := Except.ok.inj ((stageStep_short_reject hv hlt).symm.trans h)
        exact .fail .short _ hv rfl shortVerdict_ne_ok
      · obtain rfl := Except.ok.inj ((stageStep_short_pass hv hge).symm.trans h)
        exact .pass _ _ hv .short
    | long =>
      rcases lt_or_ge l.expectedLen raw.size with hlt | hge
      · obtain rfl := Except.ok.inj ((stageStep_long_reject hv hlt).symm.trans h)
        exact .fail .long _ hv rfl longVerdict_ne_ok
      · obtain rfl := Except.ok.inj ((stageStep_long_pass hv hge).symm.trans h)
        exact .pass _ _ hv .long
    | accept =>
      obtain rfl := Except.ok.inj ((stageStep_accept hv).symm.trans h)
      exact .accepted hv
    | reject =>
      obtain rfl := Except.ok.inj ((stageStep_reject hv).symm.trans h)
      exact .rejected hv

/-- What every move keeps holds after any number of stages. -/
theorem runStages_keeps {P : Locals → Prop} (hmove : ∀ l l', P l → StageMove fl raw l l' → P l') {n : ℕ}
    (hinit : P l) (h : runStages fl raw n l = .ok l') : P l' := by
  induction n generalizing l with
  | zero => exact Except.ok.inj h ▸ hinit
  | succ n ih =>
    obtain ⟨l₁, hstep, hrest⟩ := bind_ok h
    exact ih (hmove l l₁ hinit (stageMove_of_stageStep hstep)) hrest

/-! ## The order of the stages (R141) -/

theorem PlainPass.rank_succ {st st' : Stage} (h : PlainPass st st') : st' ≠ .reject ∧ st'.rank = st.rank + 1 := by
  cases h <;> exact ⟨Stage.noConfusion, rfl⟩

theorem PlainPass.not_final {st st' : Stage} (h : PlainPass st st') : st ≠ .accept ∧ st ≠ .reject := by
  cases h <;> exact ⟨Stage.noConfusion, Stage.noConfusion⟩

theorem ne_of_mayReject {st : Stage} (h : mayReject st = true) : st ≠ .typeChk ∧ st ≠ .extLen := by
  cases st with
  | typeChk => cases h
  | extLen => cases h
  | _ => exact ⟨Stage.noConfusion, Stage.noConfusion⟩

theorem StageMove.advances {st : Stage} (h : StageMove fl raw l l') (hv : l.vst = .stage st) (haccept : st ≠ .accept)
    (hreject : st ≠ .reject) :
    ∃ st', l'.vst = .stage st' ∧
      ((st' ≠ .reject ∧ st'.rank = st.rank + 1) ∨
        (st' = .reject ∧ st ≠ .typeChk ∧ st ≠ .extLen ∧ ∃ v, l'.verdict = some v ∧ v ≠ .ok)) := by
  have hst : ∀ {st'}, l.vst = .stage st' → st' = st := fun hv' => VState.stage.inj (hv'.symm.trans hv)
  cases h with
  | pass st₀ st' hv' hnext => exact ⟨st', rfl, .inl (hst hv' ▸ hnext.rank_succ)⟩
  | tag typ hv' => exact ⟨.hdrLen, rfl, .inl ⟨Stage.noConfusion, hst hv' ▸ rfl⟩⟩
  | extLen e hv' hread => exact ⟨.short, rfl, .inl ⟨Stage.noConfusion, hst hv' ▸ rfl⟩⟩
  | fail st₀ v hv' hst₀ hfail =>
    obtain ⟨htypeChk, hextLen⟩ := ne_of_mayReject (hst hv' ▸ hst₀)
    exact ⟨.reject, rfl, .inr ⟨rfl, htypeChk, hextLen, v, rfl, hfail⟩⟩
  | accepted hv' => exact absurd (hst hv').symm haccept
  | rejected hv' => exact absurd (hst hv').symm hreject

/-- The final stages stay. -/
theorem StageMove.stays (h : StageMove fl raw l l') (hv : l.vst = .stage .accept ∨ l.vst = .stage .reject) :
    l'.vst = l.vst := by
  have hst : ∀ {st}, l.vst = .stage st → st = .accept ∨ st = .reject := fun hv' => by simpa [hv'] using hv
  cases h with
  | pass st st' hv' hnext => exact absurd (hst hv') (not_or.mpr hnext.not_final)
  | tag typ hv' => simp [hv'] at hv
  | extLen e hv' hread => simp [hv'] at hv
  | fail st v hv' hst₀ hfail =>
    rcases hst hv' with rfl | rfl <;> cases hst₀
  | accepted hv' => rfl
  | rejected hv' => rfl

/-- A verdict stands only in a final stage, and it is that stage's. -/
def VerdictIsFinal (l : Locals) : Prop :=
  ∀ v, l.verdict = some v → (l.vst = .stage .accept ∧ v = .ok) ∨ (l.vst = .stage .reject ∧ v ≠ .ok)

/-- In a stage that is not final there is no verdict yet. -/
theorem VerdictIsFinal.of_not_final {st : Stage} (h : VerdictIsFinal l) (hv : l.vst = .stage st)
    (haccept : st ≠ .accept) (hreject : st ≠ .reject) (v : Verdict) : l.verdict ≠ some v := by
  intro hverdict
  rcases h v hverdict with ⟨hv', _⟩ | ⟨hv', _⟩
  · exact haccept (VState.stage.inj (hv.symm.trans hv'))
  · exact hreject (VState.stage.inj (hv.symm.trans hv'))

theorem verdictIsFinal_keeps (h : VerdictIsFinal l) (hmove : StageMove fl raw l l') : VerdictIsFinal l' := by
  intro v hverdict
  cases hmove with
  | pass st st' hv hnext => exact absurd hverdict (h.of_not_final hv hnext.not_final.1 hnext.not_final.2 v)
  | tag typ hv => exact absurd hverdict (h.of_not_final hv Stage.noConfusion Stage.noConfusion v)
  | extLen e hv hread => exact absurd hverdict (h.of_not_final hv Stage.noConfusion Stage.noConfusion v)
  | fail st v' hv hst hfail => exact .inr ⟨rfl, Option.some.inj hverdict ▸ hfail⟩
  | accepted hv => exact .inl ⟨hv, (Option.some.inj hverdict).symm⟩
  | rejected hv => exact h v hverdict

/-- A validation that answers ran its eight stages to that verdict. -/
theorem runStages_of_validate {v : Verdict} (h : validate fl raw = .ok v) :
    ∃ l, runStages fl raw 8 (Locals.initial .stage) = .ok l ∧ l.verdict = some v := by
  obtain ⟨l, hrun, hv⟩ := bind_ok h
  refine ⟨l, hrun, ?_⟩
  cases hverdict : l.verdict with
  | none => rw [hverdict] at hv; cases hv
  | some v' =>
    rw [hverdict] at hv
    exact congrArg some (Except.ok.inj hv)

end Stages

/-- Settles O44: by the moves a stage step can make; eight stages end with a verdict, which only a final stage has. -/
theorem stagesOnlyAdvance : Obligations.StagesOnlyAdvance := by
  refine ⟨fun fl raw l l' st hv haccept hreject h => (stageMove_of_stageStep h).advances hv haccept hreject,
    fun fl raw l l' hv h => (stageMove_of_stageStep h).stays hv, fun fl raw => ?_⟩
  obtain ⟨l, hrun, hverdict⟩ := runStages_of_validate (packetVerdict_eq_validateCore fl raw)
  have hinit : VerdictIsFinal (Locals.initial .stage) := fun v hv => by cases hv
  exact ⟨l, _, hrun, hverdict,
    runStages_keeps (fun _ _ => verdictIsFinal_keeps) hinit hrun _ hverdict⟩

/-! ## `expected_len` (R19, R146) -/

/-- `expected_len` fits MAX_PACKET, and from `ST_SHORT` on it is what `typ` and byte 4 call for. -/
structure ExpectedLenFits (fl : ℕ) (raw : Memory) (l : Locals) : Prop where
  le : l.expectedLen ≤ Config.maxPacket fl
  eq : l.vst = .stage .short ∨ l.vst = .stage .long ∨ l.vst = .stage .accept →
    raw.read 4 = .ok l.extLen ∧ l.expectedLen = expectedLength fl l.typ l.extLen

theorem expectedLength_le_maxPacket (fl : ℕ) (typ : BitVec 1) (e : Byte) :
    expectedLength fl typ e ≤ Config.maxPacket fl := by
  have hext := e.isLt
  simp only [expectedLength, payloadBytes, Config.maxPacket, Config.payloadSize, Config.extMax]
  split <;> omega

theorem expectedLenFits_keeps {fl : ℕ} {raw : Memory} {l l' : Locals} (h : ExpectedLenFits fl raw l)
    (hmove : StageMove fl raw l l') : ExpectedLenFits fl raw l' := by
  cases hmove with
  | pass st st' hv hnext =>
    refine ⟨h.le, fun hv' => h.eq ?_⟩
    cases hnext with
    | short => exact .inl hv
    | long => exact .inr (.inl hv)
    | _ => simp at hv'
  | tag typ hv => exact ⟨h.le, by simp⟩
  | extLen e hv hread => exact ⟨expectedLength_le_maxPacket fl l.typ e, fun _ => ⟨hread, rfl⟩⟩
  | fail st v hv hst hfail => exact ⟨h.le, by simp⟩
  | accepted hv => exact ⟨h.le, h.eq⟩
  | rejected hv => exact h

theorem expectedLenFits_of_runStages {fl n : ℕ} {raw : Memory} {l : Locals}
    (h : runStages fl raw n (Locals.initial .stage) = .ok l) : ExpectedLenFits fl raw l :=
  runStages_keeps (fun _ _ => expectedLenFits_keeps) ⟨Nat.zero_le _, by simp⟩ h

end Sys2Proof.Proofs

/-! PROOFS on the rows of the opcode table. Every row's byte is its own (R51, R60). A command row completes the
transaction with the response its rule gives for the request and FRAME_LENGTH (10_state.md R10), so it reads its operand
fields only; a packet row reads the tag where the validator awaits it (R144, R153) and stops elsewhere (log 11). -/

namespace Sys2Proof.Proofs

open Sys2Proof.Machine Sys2Proof.Laws

/-! ## The two byte spaces (R51, R59, R60) -/

/-- Settles O1: each byte is the one its row encodes to. -/
theorem wordsDecodeToTheirRows : Obligations.WordsDecodeToTheirRows :=
  ⟨CodeRoundTrip.quant, CodeRoundTrip.dequant, CodeRoundTrip.issil, CodeRoundTrip.fser, CodeRoundTrip.fdes,
    CodeRoundTrip.enc, CodeRoundTrip.val, CodeRoundTrip.vals, CodeRoundTrip.dec, CodeRoundTrip.pktN,
    CodeRoundTrip.pktS⟩

theorem decodeIn_encode (i : Instr) : decodeIn i.space (encode i) = .ok i := by
  cases i with
  | quant => exact CodeRoundTrip.quant
  | dequant => exact CodeRoundTrip.dequant
  | issil => exact CodeRoundTrip.issil
  | fser => exact CodeRoundTrip.fser
  | fdes => exact CodeRoundTrip.fdes
  | enc => exact CodeRoundTrip.enc
  | val => exact CodeRoundTrip.val
  | vals => exact CodeRoundTrip.vals
  | dec => exact CodeRoundTrip.dec
  | pktN => exact CodeRoundTrip.pktN
  | pktS => exact CodeRoundTrip.pktS

/-- A byte that decodes to a packet row is that row's tag (R51, R57). -/
theorem encode_of_decodeTag {b : Byte} {i : Instr} (h : decodeTag b = .ok i) : i.space = .packet ∧ encode i = b := by
  rcases decodeTag_cases h with ⟨rfl, rfl⟩ | ⟨rfl, rfl⟩ <;> exact ⟨rfl, rfl⟩

/-- Settles O2: both decoders invert the encoder, each on its own rows. -/
theorem rowBytesDecodeAndEncode : Obligations.RowBytesDecodeAndEncode := by
  refine ⟨decodeIn_encode, fun sp b i h => ?_⟩
  cases sp with
  | command => exact encode_of_decodeCmd h
  | packet => exact encode_of_decodeTag h

/-! ## What the operations answer (R10) -/

theorem booleanResponse_eq (b : Bool) : booleanResponse b = { status := statusSuccess b, results := .nothing } := by
  cases b <;> rfl

theorem answerVal_eq_completed (v : Verdict) (s : State) :
    answerVal v s = s.completed (booleanResponse (decide (v = .ok))) := by
  rw [booleanResponse_eq]
  rfl

theorem answerVals_eq_completed (v : Verdict) (s : State) :
    answerVals v s = s.completed ((strictErr v).elim (booleanResponse true) errorResponse) := by
  rw [answerVals]
  cases strictErr v <;> rfl

theorem operationResponse_vals (fl : ℕ) (r : Request) :
    operationResponse fl r .vals = (strictErr (validateCore fl r.raw)).elim (booleanResponse true) errorResponse := by
  rw [operationResponse]
  cases strictErr (validateCore fl r.raw) <;> rfl

theorem operationResponse_enc_of_encCheck {fl : ℕ} {r : Request} {e : ErrCode} (h : encCheck fl r = some e) :
    operationResponse fl r .enc = errorResponse e := by
  simp only [operationResponse, h]

theorem operationResponse_enc_of_encodable {fl : ℕ} {r : Request} (h : encodable fl r) :
    operationResponse fl r .enc = successWith (.packet (encodedBytes r)) := by
  simp only [operationResponse, encCheck_eq_none_iff.mpr h]

theorem operationResponse_dec_of_decErr {fl : ℕ} {r : Request} {e : ErrCode}
    (h : decErr (validateCore fl r.raw) = some e) : operationResponse fl r .dec = errorResponse e := by
  simp only [operationResponse, h]

theorem decodedOf_packetOf (fl : ℕ) (silent : Bool) (lane payload ext : List Byte) :
    decodedOf fl (packetOf silent lane payload ext) =
      .decoded (frameOf fl silent payload) (stripPadding lane) ext := by
  cases silent <;> rfl

theorem operationResponse_dec_of_fieldSizes {fl : ℕ} {r : Request} {silent : Bool} {lane payload ext : List Byte}
    (h : FieldSizes fl silent lane payload ext) (hraw : r.raw = fieldBytes silent lane payload ext) :
    operationResponse fl r .dec =
      successWith (.decoded (frameOf fl silent payload) (stripPadding lane) ext) := by
  have hcode : decErr .ok = none := rfl
  simp only [operationResponse, hraw, h.validateCore_eq_ok, hcode, h.decode_fieldBytes, Option.elim_some,
    decodedOf_packetOf]

/-- A command row completes the transaction with the response of its rule. -/
theorem exec_eq_operationResponse {s : State} {t : Txn} {i : Instr} (h : s.activity = .busy t)
    (hi : i.space = .command) : exec i s = .next (s.completed (operationResponse s.frameLength t.req i)) := by
  cases i with
  | pktN => cases hi
  | pktS => cases hi
  | quant =>
    rw [exec_quant h, quantize_eq_quantizeQ]
    rfl
  | dequant =>
    rw [exec_dequant h, dequantize_eq_rn32]
    rfl
  | issil =>
    rw [exec_issil h, isSilent_eq_decide, ← booleanResponse_eq]
    rfl
  | fser => exact exec_fser h
  | fdes => exact exec_fdes h
  | enc =>
    cases hcheck : encCheck s.frameLength t.req with
    | some e => rw [exec_enc_of_encCheck h hcheck, operationResponse_enc_of_encCheck hcheck]
    | none =>
      have henc := encCheck_eq_none_iff.mp hcheck
      rw [exec_enc_of_encodable h henc, operationResponse_enc_of_encodable henc]
      rfl
  | val =>
    rw [exec_val h, answerVal_eq_completed]
    rfl
  | vals => rw [exec_vals h, answerVals_eq_completed, operationResponse_vals]
  | dec =>
    by_cases hok : validateCore s.frameLength t.req.raw = .ok
    · obtain ⟨silent, lane, payload, ext, hsizes, hraw⟩ := exists_fieldBytes_of_validateCore_eq_ok hok
      rw [exec_dec_of_fieldSizes h hsizes hraw, operationResponse_dec_of_fieldSizes hsizes hraw]
      rfl
    · obtain ⟨e, he⟩ := decErr_of_ne_ok hok
      rw [exec_dec_of_decErr h he, operationResponse_dec_of_decErr he]

/-! ## An operation reads its operand fields only (R17) -/

theorem encCheck_congr (fl : ℕ) {r r' : Request} (haudio : r.audio = r'.audio) (hlane : r.lane = r'.lane)
    (hext : r.ext = r'.ext) : encCheck fl r = encCheck fl r' := by
  simp only [encCheck, haudio, hlane, hext]

theorem encodedBytes_congr {r r' : Request} (haudio : r.audio = r'.audio) (hlane : r.lane = r'.lane)
    (hext : r.ext = r'.ext) : encodedBytes r = encodedBytes r' := by
  simp only [encodedBytes, haudio, hlane, hext]

theorem operationResponse_congr (fl : ℕ) {i : Instr} {r r' : Request} (h : agreesOn i r r') :
    operationResponse fl r i = operationResponse fl r' i := by
  cases i with
  | enc =>
    obtain ⟨haudio, hlane, hext⟩ := h
    simp only [operationResponse, encCheck_congr fl haudio hlane hext, encodedBytes_congr haudio hlane hext]
  | pktN => rfl
  | pktS => rfl
  | _ =>
    -- One operand field, named by the agreement.
    simp only [agreesOn] at h
    simp only [operationResponse, h]

/-- Settles O19: the response is that of the operands on which the two agree. -/
theorem operationsReadOnlyTheirOperands : Obligations.OperationsReadOnlyTheirOperands := by
  intro i s₁ s₂ t₁ t₂ hi h₁ h₂ hfl hagree
  refine ⟨_, exec_eq_operationResponse h₁ hi, ?_⟩
  rw [exec_eq_operationResponse h₂ hi, hfl, operationResponse_congr _ hagree]

/-! ## The packet rows (R144, R153) -/

section Tags

variable {tag : BitVec 1} {l : Locals}

theorem takeTag_stage (hv : l.vst = .stage .typeId) :
    takeTag tag l = .ok { l with typ := tag, vst := .stage .hdrLen } := by
  simp only [takeTag, hv]

theorem takeTag_serial (hv : l.vst = .serial .type) :
    takeTag tag l = .ok { l with typ := tag, vst := .serial .lane0, pos := l.pos + 1 } := by
  simp only [takeTag, hv]

theorem takeTag_of_not_awaited (hserial : l.vst ≠ .serial .type) (hstage : l.vst ≠ .stage .typeId) :
    takeTag tag l = .error .noTypeIdAwaited := by
  unfold takeTag
  split
  next hv => exact absurd hv hstage
  next hv => exact absurd hv hserial
  next => rfl

end Tags

/-- A packet row takes its tag and touches the local variables only. -/
theorem exec_tag {s : State} {t : Txn} {i : Instr} (h : s.activity = .busy t) (hi : i.space = .packet) :
    exec i s =
      toOutcome (takeTag (if i = .pktN then 0#1 else 1#1) t.loc >>= fun l => pure (setLocals t l s)) := by
  cases i with
  | pktN => exact withTxn_busy h _
  | pktS => exact withTxn_busy h _
  | _ => cases hi

/-- Settles O43: at both places the tag is taken. -/
theorem tagsSetTheType : Obligations.TagsSetTheType := by
  intro s t h
  refine ⟨fun hv => ⟨?_, ?_⟩, fun hv => ⟨?_, ?_⟩⟩
  · rw [exec_tag h rfl, takeTag_serial hv]
    rfl
  · rw [exec_tag h rfl, takeTag_serial hv]
    rfl
  · rw [exec_tag h rfl, takeTag_stage hv]
    rfl
  · rw [exec_tag h rfl, takeTag_stage hv]
    rfl

theorem exec_idle {s : State} (h : s.activity = .idle) (i : Instr) : exec i s = .fault .noTransaction := by
  cases i <;> exact withTxn_idle h _

/-- Settles O21: every row asks for the transaction first, and a packet row for the place where the tag is awaited. -/
theorem rowsStopOutsideTheirContext : Obligations.RowsStopOutsideTheirContext := by
  refine ⟨fun i s h => exec_idle h i, fun s t h hserial hstage => ⟨?_, ?_⟩⟩
  · rw [exec_tag h rfl, takeTag_of_not_awaited hserial hstage]
    rfl
  · rw [exec_tag h rfl, takeTag_of_not_awaited hserial hstage]
    rfl

end Sys2Proof.Proofs

/-! PROOFS on the step (10_state.md R23; 70_reset_and_hazards.md R222, R225). An IDLE block takes or passes over a
request, and a BUSY block goes on whatever request is presented. What it goes on with either completes the transaction,
with a success or an error that some operation raises, or moves the validator on; so no step writes a constant, and
every STATUS has the form of R62. -/

namespace Sys2Proof.Proofs

open Sys2Proof.Machine Sys2Proof.Laws

/-! ## An IDLE block -/

theorem step_idle_request {s : State} {r : Request} (ha : s.activity = .idle) (hi : nextInput s = .request r) :
    step s = .next (offer r (takeInput s)) := by
  simp only [step, hi, ha]

theorem step_idle_quiet {s : State} (ha : s.activity = .idle) (hi : nextInput s = .quiet) :
    step s = .next (takeInput s) := by
  simp only [step, hi, advance, takeInput_activity, ha]

theorem offer_of_presentable {r : Request} {s : State} (h : presentable s.frameLength r = true) :
    offer r s = accept r s := if_pos h

theorem offer_of_not_presentable {r : Request} {s : State} (h : presentable s.frameLength r = false) :
    offer r s = s := if_neg (Bool.eq_false_iff.mp h)

theorem takeInput_of_inputs_cons {s : State} {i : HostInput} {rest : List HostInput} (h : s.inputs = i :: rest) :
    takeInput s = { s with resp := none, inputs := rest } := by
  rw [takeInput, h, List.tail_cons]

/-- Settles O8: the offer is accepted, or passed over, on the state that the input has been taken from. -/
theorem idleBlockAcceptsOneRequest : Obligations.IdleBlockAcceptsOneRequest := by
  refine fun s ha => ⟨fun r rest hinputs hr => ?_, fun r rest hinputs hr => ?_, step_idle_quiet ha⟩
  · rw [step_idle_request ha (nextInput_of_inputs_cons hinputs), offer_of_presentable (s := takeInput s) hr,
      takeInput_of_inputs_cons hinputs]
    rfl
  · rw [step_idle_request ha (nextInput_of_inputs_cons hinputs), offer_of_not_presentable (s := takeInput s) hr,
      takeInput_of_inputs_cons hinputs]

/-! ## A BUSY block -/

/-- Settles O9: once the input is taken the two states are one. -/
theorem requestWhileBusyHasNoEffect : Obligations.RequestWhileBusyHasNoEffect := by
  intro s t r rest ha hinputs
  have hrequest : nextInput s ≠ .reset := by
    rw [nextInput_of_inputs_cons hinputs]
    exact HostInput.noConfusion
  have hquiet : nextInput { s with inputs := .quiet :: rest } ≠ .reset := HostInput.noConfusion
  rw [step_busy ha hrequest, step_busy (s := { s with inputs := .quiet :: rest }) ha hquiet,
    takeInput_of_inputs_cons hinputs]
  rfl

section Advance

variable {s s' : State} {t : Txn} {i : Instr}

/-- A command that runs at once. -/
theorem advance_eq_exec (ha : s.activity = .busy t) (hi : decodeCmd t.req.cmd = .ok i)
    (hform : s.form = .stage ∨ usesValidator i = false) : advance s = exec i s := by
  have hnot : ¬ (s.form = .serial ∧ usesValidator i = true) := by
    rintro ⟨hserial, hvalidates⟩
    rcases hform with hstage | hother
    · exact ValidatorForm.noConfusion (hstage.symm.trans hserial)
    · exact Bool.false_ne_true (hother.symm.trans hvalidates)
  simp only [advance, ha, hi, hnot, if_false]

/-- A byte-serial validation. -/
theorem advance_eq_serialAdvance (ha : s.activity = .busy t) (hi : decodeCmd t.req.cmd = .ok i)
    (hform : s.form = .serial) (hvalidates : usesValidator i = true) : advance s = serialAdvance i t s := by
  simp only [advance, ha, hi, hform, hvalidates, and_self, if_true]

theorem serialAdvance_of_tag {tag : Instr} {b : Byte} (hv : t.loc.vst = .serial .type)
    (hread : t.raw.read t.loc.pos = .ok b) (htag : decodeTag b = .ok tag) : serialAdvance i t s = exec tag s := by
  simp only [serialAdvance, hread, hv, htag]

/-! ## A step of a byte-serial validation (R152 to R154) -/

theorem serialStep_of_tag {fl : ℕ} {b : Byte} {tag : Instr} {l : Locals} (hv : l.vst = .serial .type)
    (htag : decodeTag b = .ok tag) : serialStep fl b l = takeTag (if tag = .pktN then 0#1 else 1#1) l := by
  simp only [serialStep, hv, htag]

/-- With a byte left the step is the machine's step on it, also where a packet row is run. -/
theorem serialAdvance_of_read {b : Byte} (ha : s.activity = .busy t) (hread : t.raw.read t.loc.pos = .ok b) :
    serialAdvance i t s = toOutcome (serialStep s.frameLength b t.loc >>= fun l => pure (setLocals t l s)) := by
  rcases serialAdvance_cases i t s with ⟨b', tag, hread', hv, htag, heq⟩ | ⟨b', hread', _, heq⟩ | ⟨f, hread', _⟩
  · obtain rfl := Except.ok.inj (hread.symm.trans hread')
    rw [heq, exec_tag ha (encode_of_decodeTag htag).1, serialStep_of_tag hv htag]
  · obtain rfl := Except.ok.inj (hread.symm.trans hread')
    exact heq
  · rw [hread] at hread'
    cases hread'

/-- With no byte left the operation answers. -/
theorem serialAdvance_of_end {f : Fault} (hread : t.raw.read t.loc.pos = .error f) :
    serialAdvance i t s = toOutcome (serialFinish i t s) := by
  simp only [serialAdvance, hread]

end Advance

/-- Settles O5: the host's input taken, the block runs its command. -/
theorem stepRunsTheDecodedCommand : Obligations.StepRunsTheDecodedCommand := by
  intro s t i ha hi hinput hform
  rw [step_busy ha hinput]
  exact advance_eq_exec ((takeInput_activity s).trans ha) hi hform

/-- Settles O6: where the TypeId is awaited the byte's row is run. -/
theorem stepRunsTheDecodedTag : Obligations.StepRunsTheDecodedTag := by
  intro s t i tag b hform ha hi hvalidates hinput hv hread htag
  rw [step_busy ha hinput, advance_eq_serialAdvance ((takeInput_activity s).trans ha) hi hform hvalidates,
    serialAdvance_of_tag hv hread htag]

/-! ## The responses a step can give (R62 to R64) -/

/-- A success with some result, or an error that some operation raises. -/
inductive ResponseForm : Response → Prop where
  | success (b : Bool) (res : Results) : ResponseForm { status := statusSuccess b, results := res }
  | error (e : ErrCode) (he : e.raisable = true) : ResponseForm (errorResponse e)

theorem responseForm_boolean (b : Bool) : ResponseForm (booleanResponse b) :=
  booleanResponse_eq b ▸ .success b .nothing

theorem raisable_of_strictErr {v : Verdict} {e : ErrCode} (h : strictErr v = some e) : e.raisable = true := by
  cases v with
  | ok => cases h
  | _ =>
    obtain rfl := Option.some.inj h
    rfl

theorem raisable_of_decErr {v : Verdict} {e : ErrCode} (h : decErr v = some e) : e.raisable = true := by
  cases v with
  | ok => cases h
  | _ =>
    obtain rfl := Option.some.inj h
    rfl

theorem raisable_of_encCheck {fl : ℕ} {r : Request} {e : ErrCode} (h : encCheck fl r = some e) :
    e.raisable = true := by
  unfold encCheck at h
  split_ifs at h
  all_goals
    obtain rfl := Option.some.inj h
    rfl

theorem responseForm_strict (v : Verdict) : ResponseForm ((strictErr v).elim (booleanResponse true) errorResponse) := by
  cases h : strictErr v with
  | none => exact responseForm_boolean true
  | some e => exact .error e (raisable_of_strictErr h)

theorem responseForm_operationResponse (fl : ℕ) (r : Request) (i : Instr) :
    ResponseForm (operationResponse fl r i) := by
  cases i with
  | quant => exact .success false _
  | dequant => exact .success false _
  | issil => exact responseForm_boolean _
  | fser => exact .success false _
  | fdes => exact .success false _
  | enc =>
    cases hcheck : encCheck fl r with
    | some e => exact operationResponse_enc_of_encCheck hcheck ▸ .error e (raisable_of_encCheck hcheck)
    | none =>
      rw [operationResponse_enc_of_encodable (encCheck_eq_none_iff.mp hcheck)]
      exact .success false _
  | val => exact responseForm_boolean _
  | vals => exact operationResponse_vals fl r ▸ responseForm_strict _
  | dec =>
    by_cases hok : validateCore fl r.raw = .ok
    · obtain ⟨silent, lane, payload, ext, hsizes, hraw⟩ := exists_fieldBytes_of_validateCore_eq_ok hok
      rw [operationResponse_dec_of_fieldSizes hsizes hraw]
      exact .success false _
    · obtain ⟨e, he⟩ := decErr_of_ne_ok hok
      exact operationResponse_dec_of_decErr he ▸ .error e (raisable_of_decErr he)
  | pktN => exact .error .cmdIllegal rfl
  | pktS => exact .error .cmdIllegal rfl

/-! ## Everything a BUSY block can do -/

theorem answerDec_ok {v : Verdict} {t : Txn} {s s' : State} (h : answerDec v t s = .ok s') :
    ∃ r, ResponseForm r ∧ s' = s.completed r := by
  unfold answerDec at h
  split at h
  next e he =>
    exact ⟨errorResponse e, .error e (raisable_of_decErr he), (Except.ok.inj h).symm⟩
  next =>
    obtain ⟨res, _, hres⟩ := bind_ok h
    exact ⟨_, .success false res, (Except.ok.inj hres).symm⟩

/-- Whatever verdict the byte-serial machine has come to, the operation's answer completes the transaction. -/
theorem serialFinish_ok {i : Instr} {t : Txn} {s s' : State} (h : serialFinish i t s = .ok s') :
    ∃ r, ResponseForm r ∧ s' = s.completed r := by
  obtain ⟨v, _, hanswer⟩ := bind_ok h
  cases i with
  | val => exact ⟨_, responseForm_boolean _, (Except.ok.inj hanswer).symm.trans (answerVal_eq_completed v s)⟩
  | vals => exact ⟨_, responseForm_strict v, (Except.ok.inj hanswer).symm.trans (answerVals_eq_completed v s)⟩
  | dec => exact answerDec_ok hanswer
  | _ => cases hanswer

theorem serialAdvance_next {s s' : State} {t : Txn} {i : Instr} (ha : s.activity = .busy t)
    (h : serialAdvance i t s = .next s') :
    (∃ r, ResponseForm r ∧ s' = s.completed r) ∨ ∃ l, s' = setLocals t l s := by
  cases hread : t.raw.read t.loc.pos with
  | error f => exact .inl (serialFinish_ok (toOutcome_next.mp (serialAdvance_of_end hread ▸ h)))
  | ok b =>
    obtain ⟨l, _, hl⟩ := bind_ok (toOutcome_next.mp (serialAdvance_of_read ha hread ▸ h))
    exact .inr ⟨l, (Except.ok.inj hl).symm⟩

/-- A BUSY block completes its transaction, or goes on with other local variables. -/
theorem advance_next {s s' : State} {t : Txn} (ha : s.activity = .busy t) (h : advance s = .next s') :
    (∃ r, ResponseForm r ∧ s' = s.completed r) ∨ ∃ l, s' = setLocals t l s := by
  rcases advance_busy ha with ⟨e, _, heq⟩ | ⟨i, hi, _, heq⟩ | ⟨i, hi, _, _, heq⟩
  · rw [heq] at h
    exact .inl ⟨errorResponse .cmdIllegal, .error _ rfl, (Host.Outcome.next.inj h).symm⟩
  · rw [heq, exec_eq_operationResponse ha (encode_of_decodeCmd hi).1] at h
    exact .inl ⟨_, responseForm_operationResponse _ _ i, (Host.Outcome.next.inj h).symm⟩
  · exact serialAdvance_next ha (heq ▸ h)

/-! ## The constants (R11, R221) -/

/-- Settles O11: neither taking the input nor anything the block then does writes them. -/
theorem constantsAreWrittenByNothing : Obligations.ConstantsAreWrittenByNothing := by
  intro s s' h
  rcases step_cases h with ⟨_, rfl⟩ | ⟨r, _, _, rfl⟩ | ⟨_, _, rfl⟩ | ⟨t, _, ha, hadvance⟩
  · exact ⟨rfl, rfl⟩
  · rcases offer_cases r (takeInput s) with ⟨_, heq⟩ | ⟨_, heq⟩ <;> rw [heq] <;> exact ⟨rfl, rfl⟩
  · exact ⟨rfl, rfl⟩
  · rcases advance_next ((takeInput_activity s).trans ha) hadvance with ⟨r, _, rfl⟩ | ⟨l, rfl⟩ <;> exact ⟨rfl, rfl⟩

/-! ## The status word (R62, R193) -/

@[simp] theorem statusReserved_statusWord (err : Byte) (kind : ErrKind) (bool ok : Bool) :
    statusReserved (statusWord err kind bool ok) = 0#4 := by
  rw [statusReserved, statusWord, BitVec.extractLsb'_append_eq_of_le (by decide),
    BitVec.extractLsb'_append_eq_of_le (by decide), BitVec.extractLsb'_append_eq_of_le (by decide),
    BitVec.extractLsb'_append_eq_of_add_le (by decide), BitVec.extractLsb'_eq_self]

@[simp] theorem statusKind_statusWord (err : Byte) (kind : ErrKind) (bool ok : Bool) :
    statusKind (statusWord err kind bool ok) = kind.bits := by
  rw [statusKind, statusWord, BitVec.extractLsb'_append_eq_of_le (by decide),
    BitVec.extractLsb'_append_eq_of_le (by decide), BitVec.extractLsb'_append_eq_of_add_le (by decide),
    BitVec.extractLsb'_eq_self]

@[simp] theorem statusErr_statusWord (err : Byte) (kind : ErrKind) (bool ok : Bool) :
    statusErr (statusWord err kind bool ok) = err := by
  rw [statusErr, statusWord, BitVec.extractLsb'_append_eq_of_le (by decide),
    BitVec.extractLsb'_append_eq_of_le (by decide), BitVec.extractLsb'_append_eq_of_le (by decide),
    BitVec.extractLsb'_append_eq_of_le (by decide), BitVec.extractLsb'_eq_self]

theorem number_ne_zero (e : ErrCode) : e.number ≠ 0#8 := by
  cases e <;> decide

/-- A raised code is a value error or a command error (R192, R193). -/
theorem kind_bits_of_raisable {e : ErrCode} (h : e.raisable = true) : e.kind.bits ≠ 0#2 ∧ e.kind.bits ≠ 1#2 := by
  cases e <;> revert h <;> decide

/-- What R62 and R193 say of a response. -/
def WellFormedStatus (r : Response) : Prop :=
  statusReserved r.status = 0#4 ∧ statusKind r.status ≠ 1#2 ∧
    (statusOk r.status = true → statusKind r.status = 0#2 ∧ statusErr r.status = 0#8) ∧
    (statusOk r.status = false →
      statusKind r.status ≠ 0#2 ∧ statusErr r.status ≠ 0#8 ∧ statusBool r.status = false ∧ r.results = .nothing)

theorem ResponseForm.wellFormedStatus {r : Response} (h : ResponseForm r) : WellFormedStatus r := by
  cases h with
  | success b res => simp [WellFormedStatus, statusSuccess, ErrKind.bits]
  | error e he =>
    obtain ⟨hzero, hone⟩ := kind_bits_of_raisable he
    simp [WellFormedStatus, errorResponse, statusError, number_ne_zero e, hzero, hone]

/-- A response comes from a BUSY block that completes; the other steps leave none. -/
theorem responseForm_of_step {s s' : State} {r : Response} (h : step s = .next s') (hr : s'.resp = some r) :
    ResponseForm r := by
  rcases step_cases h with ⟨_, rfl⟩ | ⟨req, _, _, rfl⟩ | ⟨_, _, rfl⟩ | ⟨t, _, ha, hadvance⟩
  · cases hr
  · rcases offer_cases req (takeInput s) with ⟨_, heq⟩ | ⟨_, heq⟩ <;> rw [heq] at hr <;> cases hr
  · cases hr
  · rcases advance_next ((takeInput_activity s).trans ha) hadvance with ⟨r', hform, rfl⟩ | ⟨l, rfl⟩
    · exact Option.some.inj hr ▸ hform
    · cases hr

/-- Settles O20: both forms of a response have the status R62 describes. -/
theorem statusWordsAreWellFormed : Obligations.StatusWordsAreWellFormed := fun _ _ _ h hr =>
  (responseForm_of_step h hr).wellFormedStatus

end Sys2Proof.Proofs

/-! PROOFS on transactions (10_state.md R10, R23; 44_validator.md R152 to R155; 70_reset_and_hazards.md R228). A
transaction that runs at once answers its request in one step. A byte-serial validation stands where its machine stands
over the bytes consumed, so each step consumes one more, and after the last it answers the same. The invariant says just
that, so from it every step has a next state, which meets it again. -/

namespace Sys2Proof.Proofs

open Sys2Proof.Machine Sys2Proof.Laws

/-! ## The answer to a request -/

theorem answer_of_error {fl : ℕ} {r : Request} {e : DecodeError} (h : decodeCmd r.cmd = .error e) :
    answer fl r = errorResponse .cmdIllegal := by
  simp only [answer, h]

theorem answer_of_ok {fl : ℕ} {r : Request} {i : Instr} (h : decodeCmd r.cmd = .ok i) :
    answer fl r = operationResponse fl r i := by
  simp only [answer, h]

theorem validates_of_ok {r : Request} {i : Instr} (h : decodeCmd r.cmd = .ok i) :
    Request.validates r = usesValidator i := by
  simp only [Request.validates, h]

theorem exists_validator_of_validates {r : Request} (h : Request.validates r = true) :
    ∃ i, decodeCmd r.cmd = .ok i ∧ usesValidator i = true := by
  cases hd : decodeCmd r.cmd with
  | error e => simp [Request.validates, hd] at h
  | ok i => exact ⟨i, rfl, validates_of_ok hd ▸ h⟩

/-- A transaction that runs at once completes with the answer to its request. -/
theorem advance_at_once {s : State} {t : Txn} (ha : s.activity = .busy t)
    (hform : s.form = .stage ∨ Request.validates t.req = false) :
    advance s = .next (s.completed (answer s.frameLength t.req)) := by
  cases hd : decodeCmd t.req.cmd with
  | error e => rw [advance_of_decodeCmd_error ha hd, raise_eq_completed, answer_of_error hd]
  | ok i =>
    rw [validates_of_ok hd] at hform
    rw [advance_eq_exec ha hd hform, exec_eq_operationResponse ha (encode_of_decodeCmd hd).1, answer_of_ok hd]

/-- Settles O16: the step takes the input and the transaction runs at once. -/
theorem transactionAnswersByItsRequest : Obligations.TransactionAnswersByItsRequest := by
  intro s t ha hinput hform
  rw [step_busy ha hinput]
  exact advance_at_once ((takeInput_activity s).trans ha) hform

/-! ## Transactions one after the other (R227) -/

theorem trace_succ {s s' : State} (h : step s = .next s') (n : ℕ) :
    trace (n + 1) s = s'.resp.toList ++ trace n s' := by
  simp only [trace, h]

/-- With the stage machine a transaction is two steps: acceptance, which gives no response, and the answer. -/
theorem trace_transaction {s : State} {r : Request} {rest : List HostInput} (hform : s.form = .stage)
    (ha : s.activity = .idle) (hinputs : s.inputs = .request r :: .quiet :: rest)
    (hr : presentable s.frameLength r = true) (n : ℕ) :
    trace (n + 2) s = answer s.frameLength r ::
      trace n { s with resp := some (answer s.frameLength r), inputs := rest } := by
  have haccept := (idleBlockAcceptsOneRequest s ha).1 r (.quiet :: rest) hinputs hr
  have hanswer := transactionAnswersByItsRequest
    { s with activity := .busy { req := r, loc := Locals.initial s.form }, resp := none, inputs := .quiet :: rest }
    _ rfl HostInput.noConfusion (.inl hform)
  rw [trace_succ haccept, trace_succ hanswer]
  simp only [Option.toList_none, List.nil_append, completed_resp, Option.toList_some, List.singleton_append]
  rw [State.completed, takeInput, ← ha]
  rfl

/-- Settles O18, by induction on the requests: each leaves the block IDLE with the later inputs as they were. -/
theorem transactionsAreIndependent : Obligations.TransactionsAreIndependent := by
  intro s rs hform ha hinputs hpresentable
  induction rs generalizing s with
  | nil => rfl
  | cons r rs ih =>
    obtain ⟨hr, hrs⟩ := List.forall_mem_cons.mp hpresentable
    rw [List.length_cons, Nat.mul_succ, trace_transaction hform ha hinputs hr, List.map_cons]
    exact congrArg _ (ih _ hform ha rfl hrs)

/-! ## The byte-serial machine over RAW (R152, R153) -/

/-- The machine stands in one of its own states, with the counters in their ranges (R12, R19). -/
structure SerialSound (fl : ℕ) (l : Locals) : Prop where
  vst : ∃ st, l.vst = .serial st
  rem : l.rem ≤ 2 * fl + 255
  expectedLen : l.expectedLen = 0

theorem serialSound_initial (fl : ℕ) : SerialSound fl (Locals.initial .serial) :=
  ⟨⟨.type, rfl⟩, Nat.zero_le _, rfl⟩

theorem payloadBytes_add_le (fl : ℕ) (typ : BitVec 1) (b : Byte) : payloadBytes fl typ + b.toNat ≤ 2 * fl + 255 := by
  have hb := b.isLt
  rw [payloadBytes, Config.payloadSize]
  split <;> omega

section HeaderSteps

variable {fl : ℕ} {b : Byte} {l : Locals}

theorem serialStep_lane0 (hv : l.vst = .serial .lane0) :
    serialStep fl b l = .ok { l with vst := .serial .lane1, pos := l.pos + 1 } := by
  rw [serialStep, hv]

theorem serialStep_lane1 (hv : l.vst = .serial .lane1) :
    serialStep fl b l = .ok { l with vst := .serial .lane2, pos := l.pos + 1 } := by
  rw [serialStep, hv]

theorem serialStep_lane2 (hv : l.vst = .serial .lane2) :
    serialStep fl b l = .ok { l with vst := .serial .extLen, pos := l.pos + 1 } := by
  rw [serialStep, hv]

theorem serialStep_extLen (hv : l.vst = .serial .extLen) :
    serialStep fl b l =
      .ok { l with extLen := b, rem := payloadBytes fl l.typ + b.toNat,
                   vst := bodyState (payloadBytes fl l.typ + b.toNat), pos := l.pos + 1 } := by
  rw [serialStep, hv]

end HeaderSteps

/-- In each of its states the machine has a step on any byte (R153). -/
theorem serialStep_sound {fl : ℕ} (b : Byte) {l : Locals} (h : SerialSound fl l) :
    ∃ l', serialStep fl b l = .ok l' ∧ SerialSound fl l' ∧ l'.pos = l.pos + 1 := by
  obtain ⟨⟨st, hv⟩, hrem, hexp⟩ := h
  cases st with
  | type =>
    by_cases hne : ∀ silent, b ≠ tagByte silent
    · exact ⟨_, serialStep_type_not_tag hv hne, ⟨⟨_, rfl⟩, hrem, hexp⟩, rfl⟩
    · obtain ⟨silent, rfl⟩ := not_forall_not.mp hne
      exact ⟨_, serialStep_type_tagByte hv, ⟨⟨_, rfl⟩, hrem, hexp⟩, rfl⟩
  | lane0 => exact ⟨_, serialStep_lane0 hv, ⟨⟨_, rfl⟩, hrem, hexp⟩, rfl⟩
  | lane1 => exact ⟨_, serialStep_lane1 hv, ⟨⟨_, rfl⟩, hrem, hexp⟩, rfl⟩
  | lane2 => exact ⟨_, serialStep_lane2 hv, ⟨⟨_, rfl⟩, hrem, hexp⟩, rfl⟩
  | extLen => exact ⟨_, serialStep_extLen hv, ⟨⟨_, rfl⟩, payloadBytes_add_le fl l.typ b, hexp⟩, rfl⟩
  | body => exact ⟨_, serialStep_body hv, ⟨⟨_, rfl⟩, (Nat.sub_le ..).trans hrem, hexp⟩, rfl⟩
  | full => exact ⟨_, serialStep_full hv, ⟨⟨_, rfl⟩, hrem, hexp⟩, rfl⟩
  | badType => exact ⟨_, serialStep_final (.inr hv), ⟨⟨_, hv⟩, hrem, hexp⟩, rfl⟩
  | _ =>
    -- `BS_OVER`, whose constructor bears the name of a keyword.
    exact ⟨_, serialStep_final (.inl hv), ⟨⟨_, hv⟩, hrem, hexp⟩, rfl⟩

theorem runSerial_keeps_sound {fl : ℕ} {bs : List Byte} {l l' : Locals} (h : SerialSound fl l)
    (hrun : runSerial fl bs l = .ok l') : SerialSound fl l' := by
  induction bs generalizing l with
  | nil => exact Except.ok.inj hrun ▸ h
  | cons b bs ih =>
    obtain ⟨l₁, hstep, hsound, _⟩ := serialStep_sound b h
    rw [runSerial, hstep] at hrun
    exact ih hsound hrun

/-! ## A byte-serial validation in progress -/

/-- The first `pos` bytes of RAW are consumed, and the machine stands where they lead it. -/
structure SerialProgress (fl : ℕ) (t : Txn) : Prop where
  pos_le : t.loc.pos ≤ t.req.raw.length
  run : runSerial fl (t.req.raw.take t.loc.pos) (Locals.initial .serial) = .ok t.loc

theorem progress_iff_serial {fl : ℕ} {form : ValidatorForm} {t : Txn} (hform : form = .serial)
    (hvalidates : Request.validates t.req = true) : t.progress fl form ↔ SerialProgress fl t := by
  rw [Txn.progress, if_pos ⟨hform, hvalidates⟩]
  exact ⟨fun ⟨hpos, hrun⟩ => ⟨hpos, hrun⟩, fun ⟨hpos, hrun⟩ => ⟨hpos, hrun⟩⟩

theorem serialProgress_initial (fl : ℕ) {t : Txn} (h : t.loc = Locals.initial .serial) : SerialProgress fl t := by
  refine ⟨?_, ?_⟩ <;> rw [h]
  · exact Nat.zero_le _
  · rfl

section SerialProgress

variable {fl : ℕ} {s : State} {t : Txn} {i : Instr}

theorem SerialProgress.sound (h : SerialProgress fl t) : SerialSound fl t.loc :=
  runSerial_keeps_sound (serialSound_initial fl) h.run

/-- One more byte consumed. -/
theorem SerialProgress.next {b : Byte} {l : Locals} (h : SerialProgress fl t) (hb : t.req.raw[t.loc.pos]? = some b)
    (hstep : serialStep fl b t.loc = .ok l) (hpos : l.pos = t.loc.pos + 1) :
    SerialProgress fl { t with loc := l } := by
  refine ⟨?_, ?_⟩
  · rw [hpos]
    exact (List.getElem?_eq_some_iff.mp hb).1
  · rw [hpos, List.take_add_one, hb, Option.toList_some, runSerial_append, h.run, Except.bind, runSerial, hstep]
    rfl

/-- While bytes are left a step consumes the next one. -/
theorem SerialProgress.serialAdvance_of_lt (h : SerialProgress s.frameLength t) (ha : s.activity = .busy t)
    (hlt : t.loc.pos < t.req.raw.length) (i : Instr) :
    ∃ l, l.pos = t.loc.pos + 1 ∧ SerialProgress s.frameLength { t with loc := l } ∧
      serialAdvance i t s = .next (setLocals t l s) := by
  have hb := List.getElem?_eq_getElem hlt
  obtain ⟨l, hstep, _, hpos⟩ := serialStep_sound t.req.raw[t.loc.pos] h.sound
  refine ⟨l, hpos, h.next hb hstep hpos, ?_⟩
  rw [serialAdvance_of_read ha (raw_eq t ▸ ofBytes_read_of_getElem? hb), hstep]
  rfl

/-- At the end of RAW the machine has the verdict of `validate_core` (R155). -/
theorem SerialProgress.serialVerdict_of_end (h : SerialProgress fl t) (hend : t.loc.pos = t.req.raw.length) :
    serialVerdict t.loc = .ok (validateCore fl t.req.raw) := by
  have hrun := h.run
  rw [hend, List.take_length] at hrun
  rw [← serialCore_eq_validateCore, serialCore, hrun]
  rfl

/-- The operation's answer to the machine's verdict is the one it gives to the stage machine's. -/
theorem serialFinish_eq_exec (ha : s.activity = .busy t) (hi : usesValidator i = true)
    (hverdict : serialVerdict t.loc = .ok (validateCore s.frameLength t.req.raw)) :
    toOutcome (serialFinish i t s) = exec i s := by
  rw [serialFinish, hverdict, ok_bind]
  cases i with
  | val => exact (exec_val ha).symm
  | vals => exact (exec_vals ha).symm
  | dec => exact (exec_dec ha).symm
  | _ => cases hi

theorem SerialProgress.serialAdvance_eq_exec (h : SerialProgress s.frameLength t) (ha : s.activity = .busy t)
    (hend : t.loc.pos = t.req.raw.length) (hi : usesValidator i = true) : serialAdvance i t s = exec i s := by
  have hread : t.raw.read t.loc.pos = .error .outsidePacket := by
    rw [raw_eq, hend, ofBytes_read, List.getElem?_eq_none le_rfl]
  rw [serialAdvance_of_end hread, serialFinish_eq_exec ha hi (h.serialVerdict_of_end hend)]

/-- A BUSY block in a byte-serial validation: one more byte consumed, or the answer to its request. -/
theorem SerialProgress.advance_cases (h : SerialProgress s.frameLength t) (ha : s.activity = .busy t)
    (hform : s.form = .serial) (hvalidates : Request.validates t.req = true) :
    (∃ l, l.pos = t.loc.pos + 1 ∧ SerialProgress s.frameLength { t with loc := l } ∧
      advance s = .next (setLocals t l s)) ∨
    (t.loc.pos = t.req.raw.length ∧ advance s = .next (s.completed (answer s.frameLength t.req))) := by
  obtain ⟨i, hd, hi⟩ := exists_validator_of_validates hvalidates
  rw [advance_eq_serialAdvance ha hd hform hi]
  rcases h.pos_le.lt_or_eq with hlt | hend
  · exact .inl (h.serialAdvance_of_lt ha hlt i)
  · refine .inr ⟨hend, ?_⟩
    rw [h.serialAdvance_eq_exec ha hend hi, exec_eq_operationResponse ha (encode_of_decodeCmd hd).1, answer_of_ok hd]

end SerialProgress

/-! ## The run of a byte-serial validation (R155, R225, R231) -/

theorem run_succ {M : Host.Core} {s s' : M.State} (h : M.step s = .next s') (n : ℕ) :
    M.run (n + 1) s = M.run n s' := by
  rw [Host.Core.run, h]

theorem nextInput_ne_reset {s : State} {n : ℕ} (h : HostInput.reset ∉ s.inputs.take (n + 1)) :
    nextInput s ≠ .reset := by
  rw [nextInput]
  cases hinputs : s.inputs with
  | nil => exact HostInput.noConfusion
  | cons input rest =>
    rw [hinputs, List.take_succ_cons, List.mem_cons, not_or] at h
    exact Ne.symm h.1

theorem reset_not_mem_tail_take {is : List HostInput} {n : ℕ} (h : HostInput.reset ∉ is.take (n + 2)) :
    HostInput.reset ∉ is.tail.take (n + 1) := by
  cases is with
  | nil => simp
  | cons input rest =>
    rw [List.take_succ_cons, List.mem_cons, not_or] at h
    exact h.2

/-- From any point of a byte-serial validation on, with `n` bytes left. -/
theorem run_of_serialProgress (n : ℕ) {s : State} {t : Txn} (hform : s.form = .serial) (ha : s.activity = .busy t)
    (hvalidates : Request.validates t.req = true) (hprogress : SerialProgress s.frameLength t)
    (hleft : t.loc.pos + n = t.req.raw.length) (hinputs : HostInput.reset ∉ s.inputs.take (n + 1)) :
    Host.Core.run Sys2Proof.core (n + 1) s =
      .next { s with activity := .idle, resp := some (answer s.frameLength t.req),
                     inputs := s.inputs.drop (n + 1) } := by
  induction n generalizing s t with
  | zero =>
    have hstep := step_busy ha (nextInput_ne_reset hinputs)
    obtain ⟨l, hpos, hnext, _⟩ | ⟨_, hadvance⟩ :=
      SerialProgress.advance_cases (s := takeInput s) hprogress ha hform hvalidates
    · have hle := hnext.pos_le
      simp only [hpos] at hle
      omega
    · refine (run_succ (M := Sys2Proof.core) (hstep.trans hadvance) 0).trans ?_
      rw [List.drop_one]
      rfl
  | succ n ih =>
    have hstep := step_busy ha (nextInput_ne_reset hinputs)
    obtain ⟨l, hpos, hnext, hadvance⟩ | ⟨hend, _⟩ :=
      SerialProgress.advance_cases (s := takeInput s) hprogress ha hform hvalidates
    · refine (run_succ (M := Sys2Proof.core) (hstep.trans hadvance) (n + 1)).trans ?_
      have hleft' : l.pos + n = t.req.raw.length := by omega
      refine (ih (s := setLocals t l (takeInput s)) (t := { t with loc := l }) hform rfl hvalidates hnext hleft'
        (reset_not_mem_tail_take hinputs)).trans ?_
      rw [setLocals_inputs, takeInput_inputs, List.drop_tail]
      rfl
    · omega

/-- Settles O17: a fresh transaction has consumed nothing yet. -/
theorem serialTransactionAnswersTheSame : Obligations.SerialTransactionAnswersTheSame := by
  intro s t hform ha hvalidates hfresh hinputs
  refine run_of_serialProgress t.req.raw.length hform ha hvalidates (serialProgress_initial _ hfresh) ?_ hinputs
  rw [hfresh, initial_pos, Nat.zero_add]

/-! ## The answer is a legal response (R16, R64) -/

theorem plainStatus_of_responseForm {r : Response} (h : ResponseForm r) : plainStatus r.status := by
  cases h with
  | success b res =>
    cases b with
    | false => exact .inl rfl
    | true => exact .inr (.inl rfl)
  | error e he => exact .inr (.inr ⟨e, he, rfl⟩)

/-- A response without result fields is legal by its status alone. -/
theorem legal_of_nothing {fl : ℕ} {r : Response} (h : ResponseForm r) (hr : r.results = .nothing) : r.legal fl := by
  rw [Response.legal, hr]
  exact plainStatus_of_responseForm h

theorem encodedBytes_length_bounds {fl : ℕ} {r : Request} (h : encodable fl r) :
    5 ≤ (encodedBytes r).length ∧ (encodedBytes r).length ≤ Config.maxPacket fl := by
  rw [encodedBytes_length h, payloadBytes_ofBool]
  obtain ⟨-, -, -, hext⟩ := h
  simp only [Config.maxPacket, Config.headerSize, Config.payloadSize, Config.extMax]
  split <;> omega

theorem desFrame_length {pl : List Byte} {n : ℕ} (h : pl.length = 2 * n) : (desFrame pl).length = n := by
  have hlen := serFrame_length (desFrame pl)
  rw [serFrame_desFrame (h ▸ even_two_mul n), h] at hlen
  omega

theorem FieldSizes.frameOf_length {fl : ℕ} {silent : Bool} {lane payload ext : List Byte}
    (h : FieldSizes fl silent lane payload ext) : (frameOf fl silent payload).length = fl := by
  cases silent with
  | true => exact List.length_replicate
  | false => exact (List.length_map _).trans (desFrame_length h.payload)

/-- The fixed-size operand at its size gives result fields at theirs. -/
theorem operationResponse_legal {fl : ℕ} {r : Request} {i : Instr} (h : i.operandsOk fl r = true) :
    (operationResponse fl r i).legal fl := by
  have hform := responseForm_operationResponse fl r i
  cases i with
  | quant => rfl
  | dequant => rfl
  | issil => exact legal_of_nothing hform rfl
  | fser => exact ⟨rfl, by rw [serFrame_length, of_decide_eq_true h]⟩
  | fdes => exact ⟨rfl, desFrame_length (of_decide_eq_true h)⟩
  | enc =>
    cases hcheck : encCheck fl r with
    | some e =>
      rw [operationResponse_enc_of_encCheck hcheck] at hform ⊢
      exact legal_of_nothing hform rfl
    | none =>
      have henc := encCheck_eq_none_iff.mp hcheck
      rw [operationResponse_enc_of_encodable henc]
      exact ⟨rfl, encodedBytes_length_bounds henc⟩
  | val => exact legal_of_nothing hform rfl
  | vals =>
    refine legal_of_nothing hform ?_
    rw [operationResponse_vals]
    cases strictErr (validateCore fl r.raw) <;> rfl
  | dec =>
    by_cases hok : validateCore fl r.raw = .ok
    · obtain ⟨silent, lane, payload, ext, hsizes, hraw⟩ := exists_fieldBytes_of_validateCore_eq_ok hok
      rw [operationResponse_dec_of_fieldSizes hsizes hraw]
      exact ⟨rfl, hsizes.frameOf_length, (stripPadding_length_le lane).trans hsizes.lane.le, hsizes.ext⟩
    · obtain ⟨e, he⟩ := decErr_of_ne_ok hok
      rw [operationResponse_dec_of_decErr he] at hform ⊢
      exact legal_of_nothing hform rfl
  | pktN => exact legal_of_nothing hform rfl
  | pktS => exact legal_of_nothing hform rfl

theorem presentable_of_ok {fl : ℕ} {r : Request} {i : Instr} (hd : decodeCmd r.cmd = .ok i) :
    presentable fl r = true ↔ r.lengthsOk = true ∧ i.operandsOk fl r = true := by
  simp only [presentable, hd, Bool.and_eq_true]

theorem lengthsOk_of_presentable {fl : ℕ} {r : Request} (h : presentable fl r = true) : r.lengthsOk = true := by
  rw [presentable, Bool.and_eq_true] at h
  exact h.1

theorem answer_legal {fl : ℕ} {r : Request} (h : presentable fl r = true) : (answer fl r).legal fl := by
  cases hd : decodeCmd r.cmd with
  | error e =>
    rw [answer_of_error hd]
    exact legal_of_nothing (.error .cmdIllegal rfl) rfl
  | ok i =>
    rw [answer_of_ok hd]
    exact operationResponse_legal ((presentable_of_ok hd).mp h).2

/-! ## The invariant (R23, R24) -/

section Invariant

variable {s : State}

/-- An IDLE block meets the invariant when the response it gives, if any, is legal. -/
theorem inv_of_idle (hfl : frameLengthOk s.frameLength = true) (ha : s.activity = .idle)
    (hresp : ∀ r, s.resp = some r → r.legal s.frameLength) : s.Inv := by
  refine ⟨hfl, fun r hr => ⟨ha, hresp r hr⟩, fun t ht => ?_⟩
  rw [ha] at ht
  cases ht

/-- A BUSY block meets it when its request can be presented and its transaction stands where it can. -/
theorem inv_of_busy {t : Txn} (hfl : frameLengthOk s.frameLength = true) (ha : s.activity = .busy t)
    (hresp : s.resp = none) (hreq : presentable s.frameLength t.req = true)
    (hprogress : t.progress s.frameLength s.form) : s.Inv := by
  refine ⟨hfl, fun r hr => ?_, fun t' ht' => ?_⟩
  · rw [hresp] at hr
    cases hr
  · obtain rfl := Activity.busy.inj (ha.symm.trans ht')
    exact ⟨hreq, hprogress⟩

theorem progress_initial (fl : ℕ) (form : ValidatorForm) (r : Request) :
    Txn.progress fl form { req := r, loc := Locals.initial form } := by
  by_cases h : form = .serial ∧ Request.validates r = true
  · obtain ⟨rfl, hvalidates⟩ := h
    exact (progress_iff_serial (t := { req := r, loc := Locals.initial .serial }) rfl hvalidates).mpr
      (serialProgress_initial fl rfl)
  · rw [Txn.progress, if_neg h]

/-- Taking the host's input keeps the invariant. -/
theorem inv_takeInput (h : s.Inv) : (takeInput s).Inv := by
  obtain ⟨hfl, _, hbusy⟩ := h
  refine ⟨hfl, fun r hr => ?_, hbusy⟩
  cases hr

theorem inv_offer (h : s.Inv) (hresp : s.resp = none) (r : Request) : (offer r s).Inv := by
  have ⟨hfl, _⟩ := h
  rcases offer_cases r s with ⟨hr, heq⟩ | ⟨_, heq⟩ <;> rw [heq]
  · exact inv_of_busy hfl rfl hresp hr (progress_initial s.frameLength s.form r)
  · exact h

theorem inv_completed {t : Txn} (h : s.Inv) (ha : s.activity = .busy t) :
    (s.completed (answer s.frameLength t.req)).Inv := by
  obtain ⟨hfl, _, hbusy⟩ := h
  exact inv_of_idle hfl rfl fun r hr => Option.some.inj hr ▸ answer_legal (hbusy t ha).1

/-- A BUSY block that meets the invariant goes on, to a state that meets it. -/
theorem advance_of_inv {t : Txn} (h : s.Inv) (ha : s.activity = .busy t) (hresp : s.resp = none) :
    ∃ s', advance s = .next s' ∧ s'.Inv := by
  have ⟨hfl, _, hbusy⟩ := h
  obtain ⟨hreq, hprogress⟩ := hbusy t ha
  by_cases hserial : s.form = .serial ∧ Request.validates t.req = true
  · obtain ⟨hform, hvalidates⟩ := hserial
    have hprogress := (progress_iff_serial hform hvalidates).mp hprogress
    rcases hprogress.advance_cases ha hform hvalidates with ⟨l, _, hnext, hadvance⟩ | ⟨_, hadvance⟩
    · refine ⟨_, hadvance, inv_of_busy (t := { t with loc := l }) hfl rfl hresp hreq ?_⟩
      exact (progress_iff_serial (t := { t with loc := l }) hform hvalidates).mpr hnext
    · exact ⟨_, hadvance, inv_completed h ha⟩
  · refine ⟨_, advance_at_once ha ?_, inv_completed h ha⟩
    cases hform : s.form with
    | stage => exact .inl rfl
    | serial => exact .inr (by simpa [hform] using hserial)

/-- From a state that meets the invariant there is a step, and it keeps the invariant. -/
theorem step_of_inv (h : s.Inv) : ∃ s', step s = .next s' ∧ s'.Inv := by
  have htaken := inv_takeInput h
  have ⟨hfl, _⟩ := h
  cases ha : s.activity with
  | idle =>
    cases hi : nextInput s with
    | quiet => exact ⟨_, step_idle_quiet ha hi, htaken⟩
    | request r => exact ⟨_, step_idle_request ha hi, inv_offer htaken rfl r⟩
    | reset => exact ⟨_, step_of_nextInput_reset hi, inv_of_idle hfl rfl fun r hr => by cases hr⟩
  | busy t =>
    by_cases hi : nextInput s = .reset
    · exact ⟨_, step_of_nextInput_reset hi, inv_of_idle hfl rfl fun r hr => by cases hr⟩
    · rw [step_busy ha hi]
      exact advance_of_inv htaken ha rfl

end Invariant

/-- Settles O13: the step of a state that meets the invariant is the one found for it. -/
theorem stepKeepsTheInvariant : Obligations.StepKeepsTheInvariant := by
  intro s s' h hstep
  obtain ⟨s₁, hstep₁, hinv⟩ := step_of_inv h
  exact Host.Outcome.next.inj (hstep₁.symm.trans hstep) ▸ hinv

/-- Settles O14: a state that meets the invariant has a step. -/
theorem everyStepHasANextState : Obligations.EveryStepHasANextState := by
  intro s h
  obtain ⟨s', hstep, _⟩ := step_of_inv h
  exact ⟨s', hstep⟩

/-- Settles O12: an IDLE block that gives no response. -/
theorem resetMeetsTheInvariant : Obligations.ResetMeetsTheInvariant := by
  have hreset : ∀ (fl : ℕ) (form : ValidatorForm), frameLengthOk fl = true → (State.afterReset fl form).Inv :=
    fun fl form hfl => inv_of_idle hfl rfl fun r hr => by cases hr
  exact ⟨hreset 4 .stage (by decide), hreset⟩

/-! ## The counters (R12, R19, R153) -/

theorem frameLength_le {fl : ℕ} (h : frameLengthOk fl = true) : fl ≤ 32637 := by
  rw [frameLengthOk, Bool.and_eq_true, decide_eq_true_eq, decide_eq_true_eq] at h
  exact h.2

theorem raw_length_le {r : Request} (h : r.lengthsOk = true) : r.raw.length ≤ 65535 := by
  simp only [Request.lengthsOk, Bool.and_eq_true, decide_eq_true_eq] at h
  exact h.2

/-- A transaction that meets the invariant has its counters in range, in the validation or at its start. -/
theorem counters_of_progress {fl : ℕ} {form : ValidatorForm} {t : Txn} (h : t.progress fl form) :
    t.loc.pos ≤ t.req.raw.length ∧ t.loc.rem ≤ 2 * fl + 255 ∧ t.loc.expectedLen = 0 := by
  by_cases hserial : form = .serial ∧ Request.validates t.req = true
  · have hprogress := (progress_iff_serial hserial.1 hserial.2).mp h
    exact ⟨hprogress.pos_le, hprogress.sound.rem, hprogress.sound.expectedLen⟩
  · rw [Txn.progress, if_neg hserial] at h
    rw [h]
    exact ⟨Nat.zero_le _, Nat.zero_le _, rfl⟩

theorem getElem?_of_ofBytes_read {bs : List Byte} {a : ℕ} {b : Byte} (h : (Memory.ofBytes bs).read a = .ok b) :
    bs[a]? = some b := by
  rw [ofBytes_read] at h
  cases hb : bs[a]? with
  | none => rw [hb] at h; cases h
  | some b' =>
    rw [hb] at h
    exact congrArg some (Except.ok.inj h)

/-- Settles O15: the invariant bounds the serial counters, and each stage keeps the bound of `expected_len`. -/
theorem countersFitSixteenBits : Obligations.CountersFitSixteenBits := by
  refine ⟨fun s t h ha => ?_, fun fl n raw l hfl hrun => ?_⟩
  · obtain ⟨hfl, _, hbusy⟩ := h
    obtain ⟨hreq, hprogress⟩ := hbusy t ha
    obtain ⟨hpos, hrem, hexp⟩ := counters_of_progress hprogress
    have hraw := raw_length_le (lengthsOk_of_presentable hreq)
    have hmax := frameLength_le hfl
    exact ⟨hpos, hpos.trans hraw, hrem, by omega, by omega⟩
  · obtain ⟨hle, heq⟩ := expectedLenFits_of_runStages hrun
    have hmax := frameLength_le hfl
    have hfits : Config.maxPacket fl ≤ 65535 := by
      simp only [Config.maxPacket, Config.headerSize, Config.payloadSize, Config.extMax]
      omega
    refine ⟨hle, hfits, fun hv => ?_⟩
    obtain ⟨hread, hexp⟩ := heq hv
    have hlen : l.expectedLen = 5 + (if l.typ = 0#1 then 2 * fl else 0) + l.extLen.toNat := hexp
    exact ⟨by omega, getElem?_of_ofBytes_read hread, hlen⟩

end Sys2Proof.Proofs
